-- ==== Sys2Proof/Word.lean ====
section
/-! DEFINITION. The words of the link engine: bytes, times, the sample of the input ports (10_state.md R43) and the
inputs a host can apply to the block (30_encoding.md R110, R112, R113). -/

namespace Sys2Proof

/-- A byte: 8 bits, unsigned (00_scope.md R8). -/
abbrev Byte := BitVec 8

/-- The input ports of 10_state.md R43, sampled once at the start of a step. `now` is a value of the millisecond time
input, `TIME_W` bits wide (R33): `TIME_W` is an OPEN parameter, so every time is held as a natural number, which the
decoder brings below `2^TIME_W` (DESIGN CHOICE, safe, log 4). -/
structure PortSample where
  op         : BitVec 3
  now        : Nat
  rxByte     : Byte
  levels     : BitVec 4
  hbStatus   : Byte
  btnIndex   : BitVec 2
  btnPressed : Bool
  deriving DecidableEq, Repr

/-- One input of a step. `port` is an operation on the command port (R110). The others are the rows of the opcode
table that have no select code (R111, R113): a frame presented whole on the receive side, a burst of received bytes
(`RXS`), a pass of the polling loop (`POLL_CYCLE`), the two pure functions and the query. -/
inductive Input where
  | port (p : PortSample)
  | frame (bytes : List Byte) (now : Nat)
  | burst (bytes : List Byte) (now : Nat)
  | cycle (rx : List (Byte × Nat)) (tick : Option (BitVec 4 × Nat)) (silence : Option Nat)
      (beat : Option (Nat × Byte))
  | xorfold (bs : List Byte)
  | encode (kind : Byte) (payload : List Byte)
  | connected
  deriving DecidableEq, Repr

end Sys2Proof
end

