-- ==== Sys2Proof/Config.lean ====
section
/-! DEFINITION. The implementation parameters of 00_scope.md R7: the record `Cfg`, its constraints, the reference
instance REF of 95_test_vectors.md, and the free value that stands for an unknown LABEL_SPLIT. -/

namespace Sys2Proof

/-- `QUIET_MODE` (44_debounce.md R204, 92_eei_decisions.md D19). -/
inductive QuietMode where
  /-- the filter runs during the quiet period and only the report is withheld -/
  | gate
  /-- the line ignores the tick during the quiet period -/
  | freeze
  deriving DecidableEq, Repr

/-- Four button labels, button 0 first (43_dispatcher.md R185). -/
structure Labels where
  s0 : List Byte
  s1 : List Byte
  s2 : List Byte
  s3 : List Byte
  deriving DecidableEq, Repr

/-- Which function `LABEL_SPLIT` is. R7 leaves it OPEN: "a total function from a byte string to either four byte
strings or `none`". A configuration is plain data, so it names the function: the reference instance of R188, or the
unknown function number `n` (DESIGN CHOICE, safe, log 3). -/
inductive LabelLayout where
  | refSplit
  | other (n : Nat)
  deriving DecidableEq, Repr

/-- FREE VALUE (log 3): the OPEN parameter `LABEL_SPLIT`, one unknown function for each number. -/
opaque Config.openSplit : Nat → List Byte → Option Labels

/-- The four items of the identity that a model should record (R2). -/
structure Identity where
  name       : String
  repository : String
  document   : String
  revision   : Option String
  deriving DecidableEq, Repr

/-- The identity of the block (R2): name `camel-pad link engine`, source repository `pleimann/camel-pad`, source
document `the source`, revision unknown. -/
def Config.identity : Identity where
  name       := "camel-pad link engine"
  repository := "pleimann/camel-pad"
  document   := "the source"
  revision   := none

/-- `MARKER`, FIXED by the wire format (R7). -/
def Config.marker : Byte := 0xAA

/-- `N_LINES`, FIXED (R7): the four fields of `Machine.Lines`. -/
def Config.nLines : Nat := 4

/-- The configuration record of R7. REFERENCE fields have the source's reference value as default; OPEN fields have
none. -/
structure Cfg where
  maxBody          : Nat
  idleTimeoutMs    : Nat := 500
  silenceMs        : Nat := 15000
  heartbeatMs      : Nat := 5000
  quietMs          : Nat := 50
  matchThresh      : Nat := 3
  quietMode        : QuietMode
  timeW            : Nat
  cntW             : Nat
  kDisplayText     : Byte
  kStatusText      : Byte
  kSetLeds         : Byte
  kClearDisplay    : Byte
  kSetButtonLabels : Byte
  kButtonEvent     : Byte
  kHeartbeat       : Byte
  labelLayout      : LabelLayout
  deriving DecidableEq, Repr

namespace Cfg

/-- The seven kind codes in the order of R7. -/
def kinds (c : Cfg) : List Byte :=
  [c.kDisplayText, c.kStatusText, c.kSetLeds, c.kClearDisplay, c.kSetButtonLabels, c.kButtonEvent, c.kHeartbeat]

/-- The constraints of R7's table. -/
abbrev Legal (c : Cfg) : Prop :=
  (1 ≤ c.maxBody ∧ c.maxBody ≤ 65535) ∧
  (1 ≤ c.idleTimeoutMs ∧ c.idleTimeoutMs < 2 ^ (c.timeW - 1)) ∧
  (1 ≤ c.silenceMs ∧ c.silenceMs < 2 ^ (c.timeW - 1)) ∧
  (1 ≤ c.heartbeatMs ∧ c.heartbeatMs < 2 ^ (c.timeW - 1)) ∧
  c.quietMs < 2 ^ (c.timeW - 1) ∧
  (1 ≤ c.matchThresh ∧ c.matchThresh ≤ 2 ^ c.cntW - 1) ∧
  c.kinds.Nodup

/-- The reference instance REF (95_test_vectors.md, D32): the spec's own choice for the OPEN fields, not a fact
about the project (DESIGN CHOICE, unsafe, log 2). -/
def ref : Cfg where
  maxBody          := 64
  quietMode        := .gate
  timeW            := 32
  cntW             := 8
  kDisplayText     := 0x01
  kStatusText      := 0x02
  kSetLeds         := 0x03
  kClearDisplay    := 0x04
  kSetButtonLabels := 0x05
  kButtonEvent     := 0x10
  kHeartbeat       := 0x11
  labelLayout      := .refSplit

end Cfg

end Sys2Proof
end

