-- ==== Sys2Proof/Syntax.lean ====
section
/-! DEFINITION. The instructions: one constructor per row of spec/opcode_table.json, in the table's order. -/

namespace Sys2Proof

/-- An instruction. OP rows carry the ports they read (30_encoding.md R110). FRAME rows are a frame as it stands on
the wire (R91): the declared body length `len`, and in `tail` the bytes that follow the kind byte, payload then
checksum; whether length and checksum are right is the parser's to find out (R106). All bytes of a FRAME row and of
`RXS` arrive at one `now` (R112). -/
inductive Instr where
  -- OP rows
  | nop
  | rxByte (b : Byte) (now : Nat)
  | sampleTick (levels : BitVec 4) (now : Nat)
  | sessionCheck (now : Nat)
  | heartbeatCheck (now : Nat) (status : Byte)
  | sendButtonEvent (index : Fin 4) (pressed : Bool)
  | sendHeartbeat (status : Byte)
  | init (levels : BitVec 4) (now : Nat)
  -- FRAME rows
  | displayText (len : BitVec 16) (tail : List Byte) (now : Nat)
  | statusText (len : BitVec 16) (tail : List Byte) (now : Nat)
  | setLeds (len : BitVec 16) (tail : List Byte) (now : Nat)
  | clearDisplay (len : BitVec 16) (tail : List Byte) (now : Nat)
  | setButtonLabels (len : BitVec 16) (tail : List Byte) (now : Nat)
  | buttonEvent (len : BitVec 16) (tail : List Byte) (now : Nat)
  | heartbeat (len : BitVec 16) (tail : List Byte) (now : Nat)
  | unknownKind (len : BitVec 16) (kind : Byte) (tail : List Byte) (now : Nat)
  -- FUNCTION rows
  | xorfold (bs : List Byte)
  | encode (kind : Byte) (payload : List Byte)
  -- QUERY row
  | bridgeConnected
  -- PSEUDO rows
  | rxs (bs : List Byte) (now : Nat)
  | pollCycle (rx : List (Byte × Nat)) (tick : Option (BitVec 4 × Nat)) (silence : Option Nat)
      (beat : Option (Nat × Byte))
  deriving DecidableEq, Repr

end Sys2Proof
end

