-- ==== Sys2Proof/WellFormed.lean ====
section
/-! DEFINITION. Which instructions the ports and the wire can carry: every operand fits its port (10_state.md R43),
and a frame has as many bytes after its kind byte as its length field declares (30_encoding.md R91, R108). -/

namespace Sys2Proof

/-- A time fits the `TIME_W`-bit port `now` (R43). -/
def Cfg.timeFits (c : Cfg) (t : Nat) : Bool := decide (t < 2 ^ c.timeW)

/-- After the kind byte a frame has `L - 1` payload bytes and one checksum byte (R91), so `L` bytes. For `L = 0`
there are none: the frame is the bare header, which the parser fails (R106). -/
def frameTailFits (len : BitVec 16) (tail : List Byte) : Bool := tail.length == len.toNat

/-- A kind byte that is none of the seven `K_*` (R104). -/
def Cfg.isUnknownKind (c : Cfg) (k : Byte) : Bool := !c.kinds.contains k

/-- The operands of an instruction fit. A frame's length may be any 16-bit number and its checksum any byte: R106
gives the illegal ones their effect. `ENCODE` takes a payload of at most 65534 bytes (40_codec.md R132). -/
def Instr.wellFormed (c : Cfg) : Instr → Bool
  | .nop => true
  | .rxByte _ now => c.timeFits now
  | .sampleTick _ now => c.timeFits now
  | .sessionCheck now => c.timeFits now
  | .heartbeatCheck now _ => c.timeFits now
  | .sendButtonEvent _ _ => true
  | .sendHeartbeat _ => true
  | .init _ now => c.timeFits now
  | .displayText len tail now => frameTailFits len tail && c.timeFits now
  | .statusText len tail now => frameTailFits len tail && c.timeFits now
  | .setLeds len tail now => frameTailFits len tail && c.timeFits now
  | .clearDisplay len tail now => frameTailFits len tail && c.timeFits now
  | .setButtonLabels len tail now => frameTailFits len tail && c.timeFits now
  | .buttonEvent len tail now => frameTailFits len tail && c.timeFits now
  | .heartbeat len tail now => frameTailFits len tail && c.timeFits now
  | .unknownKind len k tail now => c.isUnknownKind k && frameTailFits len tail && c.timeFits now
  | .xorfold _ => true
  | .encode _ payload => decide (payload.length ≤ 65534)
  | .bridgeConnected => true
  | .rxs _ now => c.timeFits now
  | .pollCycle rx tick silence beat =>
    rx.all (fun p => c.timeFits p.2) && tick.all (fun p => c.timeFits p.2) &&
      silence.all c.timeFits && beat.all (fun p => c.timeFits p.1)

end Sys2Proof
end

