-- ==== Sys2Proof/Decode.lean ====
section
/-! DEFINITION. Decoding: from the inputs of a step to an instruction, total; the frame decoder, which rejects by
name; the encoder, written from the same rules; and the two views of an opcode-table word. Follows 30_encoding.md
R91, R94, R97, R108, R110, R114. -/

namespace Sys2Proof

/-! ### Length field (R94) -/

/-- `{len_hi, len_lo} = len_hi * 256 + len_lo`: the byte that arrives first is bits 15:8 (R94, 20_memory.md R65). -/
def lenOf (hi lo : Byte) : BitVec 16 := BitVec.ofNat 16 (hi.toNat * 256 + lo.toNat)

/-- `L[15:8]`. -/
def lenHi (len : BitVec 16) : Byte := BitVec.ofNat 8 (len.toNat / 256)

/-- `L[7:0]`. -/
def lenLo (len : BitVec 16) : Byte := BitVec.ofNat 8 len.toNat

/-- The ports carry `TIME_W` bits of time (10_state.md R43, R33). -/
def Cfg.sampleTime (c : Cfg) (t : Nat) : Nat := t % 2 ^ c.timeW

/-! ### The frame decoder -/

/-- Why bytes are not a frame. -/
inductive DecodeError where
  /-- no byte at all -/
  | empty
  /-- the first byte is not `0xAA` (R90) -/
  | noMarker
  /-- the bytes end before the header, or before the body and checksum that the length declares (R108) -/
  | truncated
  deriving DecidableEq, Repr

/-- The opcode map of R97: which row a kind byte selects. Any other value is `UNKNOWN_KIND` (R104). -/
def frameInstr (c : Cfg) (kind : Byte) (len : BitVec 16) (tail : List Byte) (now : Nat) : Instr :=
  if kind = c.kDisplayText then .displayText len tail now
  else if kind = c.kStatusText then .statusText len tail now
  else if kind = c.kSetLeds then .setLeds len tail now
  else if kind = c.kClearDisplay then .clearDisplay len tail now
  else if kind = c.kSetButtonLabels then .setButtonLabels len tail now
  else if kind = c.kButtonEvent then .buttonEvent len tail now
  else if kind = c.kHeartbeat then .heartbeat len tail now
  else .unknownKind len kind tail now

/-- One frame from the front of a byte string, and the bytes after it. The length field alone tells where it ends
(R108). -/
def decodeFrame (c : Cfg) (bytes : List Byte) (now : Nat) : Except DecodeError (Instr × List Byte) :=
  match bytes with
  | [] => .error .empty
  | m :: rest =>
    if m = Config.marker then
      match rest with
      | hi :: lo :: kind :: tail =>
        let len := lenOf hi lo
        if tail.length < len.toNat then .error .truncated
        else .ok (frameInstr c kind len (tail.take len.toNat) now, tail.drop len.toNat)
      | _ => .error .truncated
    else .error .noMarker

/-! ### The command port -/

/-- The operation select of R110: all eight codes are defined, each reads its own operand ports. -/
def decodePort (c : Cfg) (p : PortSample) : Instr :=
  if p.op = 0 then .nop
  else if p.op = 1 then .rxByte p.rxByte (c.sampleTime p.now)
  else if p.op = 2 then .sampleTick p.levels (c.sampleTime p.now)
  else if p.op = 3 then .sessionCheck (c.sampleTime p.now)
  else if p.op = 4 then .heartbeatCheck (c.sampleTime p.now) p.hbStatus
  else if p.op = 5 then .sendButtonEvent p.btnIndex.toFin p.btnPressed
  else if p.op = 6 then .sendHeartbeat p.hbStatus
  else .init p.levels (c.sampleTime p.now)

/-- The instruction of an input. Bytes presented as a frame that are not exactly one frame are received all the same,
one by one, as `RXS` (R113), so nothing the wire can carry is refused (DESIGN CHOICE, safe, log 12). -/
def decode (c : Cfg) (inp : Input) : Instr :=
  match inp with
  | .port p => decodePort c p
  | .frame bytes now =>
    match decodeFrame c bytes (c.sampleTime now) with
    | .ok (i, []) => i
    | _ => .rxs bytes (c.sampleTime now)
  | .burst bytes now => .rxs bytes (c.sampleTime now)
  | .cycle rx tick silence beat =>
    .pollCycle (rx.map fun p => (p.1, c.sampleTime p.2)) (tick.map fun p => (p.1, c.sampleTime p.2))
      (silence.map c.sampleTime) (beat.map fun p => (c.sampleTime p.1, p.2))
  | .xorfold bs => .xorfold bs
  | .encode kind payload => .encode kind payload
  | .connected => .bridgeConnected

/-! ### The encoder -/

/-- A sample of the ports in which every operand port is 0. -/
def portIdle (op : BitVec 3) : PortSample :=
  { op := op, now := 0, rxByte := 0, levels := 0, hbStatus := 0, btnIndex := 0, btnPressed := false }

/-- The bytes of a frame on the wire (R91): marker, length high byte first, kind, then payload and checksum. -/
def wireBytes (kind : Byte) (len : BitVec 16) (tail : List Byte) : List Byte :=
  Config.marker :: lenHi len :: lenLo len :: kind :: tail

/-- The input that carries an instruction: the `op` code of R110 with its operand ports, or a frame's bytes. -/
def encode (c : Cfg) : Instr → Input
  | .nop => .port (portIdle 0)
  | .rxByte b now => .port { portIdle 1 with rxByte := b, now := now }
  | .sampleTick levels now => .port { portIdle 2 with levels := levels, now := now }
  | .sessionCheck now => .port { portIdle 3 with now := now }
  | .heartbeatCheck now status => .port { portIdle 4 with now := now, hbStatus := status }
  | .sendButtonEvent index pressed => .port { portIdle 5 with btnIndex := BitVec.ofFin index, btnPressed := pressed }
  | .sendHeartbeat status => .port { portIdle 6 with hbStatus := status }
  | .init levels now => .port { portIdle 7 with levels := levels, now := now }
  | .displayText len tail now => .frame (wireBytes c.kDisplayText len tail) now
  | .statusText len tail now => .frame (wireBytes c.kStatusText len tail) now
  | .setLeds len tail now => .frame (wireBytes c.kSetLeds len tail) now
  | .clearDisplay len tail now => .frame (wireBytes c.kClearDisplay len tail) now
  | .setButtonLabels len tail now => .frame (wireBytes c.kSetButtonLabels len tail) now
  | .buttonEvent len tail now => .frame (wireBytes c.kButtonEvent len tail) now
  | .heartbeat len tail now => .frame (wireBytes c.kHeartbeat len tail) now
  | .unknownKind len kind tail now => .frame (wireBytes kind len tail) now
  | .xorfold bs => .xorfold bs
  | .encode kind payload => .encode kind payload
  | .bridgeConnected => .connected
  | .rxs bs now => .burst bs now
  | .pollCycle rx tick silence beat => .cycle rx tick silence beat

/-! ### A word of the opcode table (R114) -/

/-- The bytes on the wire of a frame header numbered as R114 numbers it, marker in bits 31:24. Bits above 31 are 0, so
the bytes after the header are zeros, as many as the length field declares. -/
def headerBytes (w : Nat) : List Byte :=
  let hi := BitVec.ofNat 8 (w / 65536)
  let lo := BitVec.ofNat 8 (w / 256)
  BitVec.ofNat 8 (w / 16777216) :: hi :: lo :: BitVec.ofNat 8 w :: List.replicate (lenOf hi lo).toNat 0

/-- The input that a table word stands for. A word of at most 8 bits is the 3-bit `op` port (other bits do not exist
there); one of 32 bits is a frame header. The table gives `UNKNOWN_KIND` the fields of bits 23:0 and fixes its marker
in words, so a 24-bit word is a header whose marker is `0xAA` (log 17). No other width is a row's. -/
def tableInput (nbits w : Nat) : Option Input :=
  if nbits ≤ 8 then if w < 8 then some (.port (portIdle (BitVec.ofNat 3 w))) else none
  else if nbits = 32 then if w < 4294967296 then some (.frame (headerBytes w) 0) else none
  else if nbits = 24 then if w < 16777216 then some (.frame (headerBytes (0xAA000000 + w)) 0) else none
  else none

/-- The instruction the decoder reads from a word of the opcode table, whose kind codes are the REF instance's (R114).
A header that is no frame is refused here. -/
def decodeTableWord (nbits w : Nat) : Option Instr :=
  match tableInput nbits w with
  | some (.frame bytes now) =>
    match decodeFrame Cfg.ref bytes now with
    | .ok (i, []) => some i
    | _ => none
  | some inp => some (decode Cfg.ref inp)
  | none => none

end Sys2Proof
end

