-- ==== Sys2Proof/Machine/State.lean ====
section
/-! DEFINITION. The state of the link engine (10_state.md R20), the outputs of a step (R44), the reasons a step can
stop, and power-on reset (45_system.md R220). -/

namespace Sys2Proof.Machine

/-- The parser's phase: five values (10_state.md R27). -/
inductive Phase where
  | waitStart
  | readLenHigh
  | readLenLow
  | readBody
  | readChecksum
  deriving DecidableEq, Repr

/-- The drop causes of 60_exceptions.md R240, in the order of their codes. -/
inductive Drop where
  | badStart
  | lenOversize
  | lenZero
  | badChecksum
  | idleTimeout
  deriving DecidableEq, Repr

/-- One element of a `SetLeds` action (43_dispatcher.md R183). -/
structure Led where
  index : Byte
  r     : Byte
  g     : Byte
  b     : Byte
  deriving DecidableEq, Repr

/-- The effects of a step (00_scope.md R10). -/
inductive Effect where
  | tx (bytes : List Byte)
  | displayText (bytes : List Byte)
  | statusText (bytes : List Byte)
  | setLeds (leds : List Led)
  | clearDisplay
  | setButtonLabels (labels : Labels)
  | bridgeDisconnected
  deriving DecidableEq, Repr

/-- What a FUNCTION or QUERY row of the table answers (40_codec.md R130, R131; 42_session.md R173). -/
inductive Result where
  | byte (b : Byte)
  | bytes (bs : List Byte)
  | bit (b : Bool)
  deriving DecidableEq, Repr

/-- A button line record (10_state.md R34 to R39). -/
structure ButtonLine where
  activeLow : Bool
  cand      : Bool
  reported  : Bool
  cnt       : Nat
  tRep      : Nat
  deriving DecidableEq, Repr

/-- The four line records (R34). -/
structure Lines where
  line0 : ButtonLine
  line1 : ButtonLine
  line2 : ButtonLine
  line3 : ButtonLine
  deriving DecidableEq, Repr

/-- `BUF` as the bytes that hold a value, addresses strictly rising. A byte that is not listed holds no value
(10_state.md R26). -/
abbrev Memory := List Host.Cell

/-- The canonical form: strictly rising addresses. An unlisted byte has no value, so no entry can equal it. -/
abbrev Memory.wf (m : Memory) : Prop := m.Pairwise (fun a b => a.1 < b.1)

/-- The record handed to every step: the parameter `cfg` (00_scope.md R7), the spec's state (10_state.md R20), the
outputs of the last step (R44), the TX stream and the inputs still to come (20_memory.md R60). -/
structure State where
  /-- parameter, written by no operation (10_state.md R40; log 1) -/
  cfg        : Cfg
  inited     : Bool
  phase      : Phase
  bodyLen    : BitVec 16
  cursor     : BitVec 16
  buf        : Memory
  tLastByte  : Nat
  tLastValid : Nat
  connected  : Bool
  tLastHb    : Nat
  lines      : Lines
  /-- the TX stream, append only (20_memory.md R63) -/
  tx         : List Byte
  /-- the ordered effect list of the last step (00_scope.md R11) -/
  effects    : List Effect
  /-- the drop causes of the last step; no rule reads them (60_exceptions.md R241) -/
  drops      : List Drop
  /-- the answer of the last step, if it was a FUNCTION or QUERY row (log 13) -/
  result     : Option Result
  /-- the inputs the host has still to apply, the next one first (45_system.md R229; log 8) -/
  pending    : List Input
  deriving DecidableEq, Repr

/-- Reasons the machine stops with a fault. Both are excluded in every state that meets the invariant of
10_state.md R29. -/
inductive Fault where
  /-- raised by a read of `BUF[a]` that no `ReadBody` transition has written (R26: "a fault on read"); safe -/
  | bufNoValue (a : Nat)
  /-- raised by an access at index `a`, which is `MAX_BODY` or above and does not exist (20_memory.md R61); safe -/
  | bufNoIndex (a : Nat)
  deriving DecidableEq, Repr

/-- Reasons an operation has no next state. -/
inductive Refusal where
  /-- raised by `exec` for an instruction with no meaning; safe -/
  | notModelled (mnemonic : String)
  /-- raised by an operation that requires `inited = 1`, before the first `INIT` (45_system.md R223: "A model refuses
  such a step"); safe -/
  | notInitialised
  /-- raised by `ENCODE` of more than 65534 payload bytes (40_codec.md R132: "does not define it beyond"); safe -/
  | encodeDomain
  deriving DecidableEq, Repr

/-- A line record before the first `INIT`: R46 leaves its fields unspecified (DESIGN CHOICE 0, unsafe, log 5). -/
def ButtonLine.powerOn : ButtonLine :=
  { activeLow := false, cand := false, reported := false, cnt := 0, tRep := 0 }

/-- Power-on reset (R220): `inited = 0`, `phase = WaitStart`, `connected = 0`, no byte of `BUF` has a value. Every
other register is unspecified there and 0 here (DESIGN CHOICE, unsafe, log 5). The parameter is REF (log 2). -/
def State.reset : State where
  cfg        := Cfg.ref
  inited     := false
  phase      := .waitStart
  bodyLen    := 0
  cursor     := 0
  buf        := []
  tLastByte  := 0
  tLastValid := 0
  connected  := false
  tLastHb    := 0
  lines      := ⟨.powerOn, .powerOn, .powerOn, .powerOn⟩
  tx         := []
  effects    := []
  drops      := []
  result     := none
  pending    := []

end Sys2Proof.Machine
end

