-- ==== Sys2Proof/Machine/Operands.lean ====
section
/-! DEFINITION. Operand forms: the XOR fold and the frame encoder as functions of bytes (40_codec.md), the payload
layouts (30_encoding.md R98 to R103), the raw level and polarity correction of a line (44_debounce.md R203), and
access to the line file. -/

namespace Sys2Proof.Machine

/-! ### Codec functions -/

/-- `XORFOLD` (R130): fold from `0x00`. -/
def xorFold (bs : List Byte) : Byte := bs.foldl (fun c b => c ^^^ b) 0x00

/-- The frame of `ENCODE` (R131): marker, `len_hi`, `len_lo`, kind, payload, checksum, with `len = 1 + |payload|`
evaluated in 16 bits. It is what R131 says for `|payload| <= 65534` (R132). -/
def frameOf (kind : Byte) (payload : List Byte) : List Byte :=
  wireBytes kind (BitVec.ofNat 16 (1 + payload.length)) (payload ++ [xorFold (kind :: payload)])

/-- The domain of `ENCODE` (R132). -/
def encodeDomain (payload : List Byte) : Bool := decide (payload.length ≤ 65534)

/-! ### Payload layouts -/

/-- The quadruples of a `SET_LEDS` payload (R99, R183), in order; a trailing incomplete quadruple is ignored. -/
def quadruples : List Byte → List Led
  | i :: r :: g :: b :: rest => ⟨i, r, g, b⟩ :: quadruples rest
  | _ => []

/-- The pieces of a byte string cut at every `0x00` (R188): one more piece than there are `0x00` bytes. -/
def cutAtZero : List Byte → List (List Byte)
  | [] => [[]]
  | b :: rest =>
    if b = 0 then [] :: cutAtZero rest
    else
      match cutAtZero rest with
      | piece :: pieces => (b :: piece) :: pieces
      | [] => [[b]]

/-- `REF_SPLIT` (R188): the first four pieces, or `none`. -/
def refSplit (payload : List Byte) : Option Labels :=
  match cutAtZero payload with
  | s0 :: s1 :: s2 :: s3 :: _ => some ⟨s0, s1, s2, s3⟩
  | _ => none

/-- `LABEL_SPLIT` (R7, R101), the function the configuration names (log 3). -/
def labelSplit (c : Cfg) (payload : List Byte) : Option Labels :=
  match c.labelLayout with
  | .refSplit => refSplit payload
  | .other n => Config.openSplit n payload

/-- Payload of `BUTTON_EVENT` (R102): index, then `0x01` for pressed or `0x00` for released. -/
def buttonPayload (index : Fin 4) (pressed : Bool) : List Byte :=
  [BitVec.ofNat 8 index.val, if pressed then 0x01 else 0x00]

/-- Payload of `HEARTBEAT` (R103): the status byte. -/
def heartbeatPayload (status : Byte) : List Byte := [status]

/-! ### Button lines -/

/-- `levels[i]`, the raw level of line `i` (10_state.md R43). -/
def rawLevel (levels : BitVec 4) (i : Fin 4) : Bool := levels.getLsbD i.val

/-- The corrected sample: raw level XOR `active_low`, 1 for pressed (R203). -/
def correctedSample (L : ButtonLine) (level : Bool) : Bool := xor level L.activeLow

/-- `line[i]`. -/
def Lines.get (ls : Lines) (i : Fin 4) : ButtonLine :=
  match i with
  | 0 => ls.line0
  | 1 => ls.line1
  | 2 => ls.line2
  | 3 => ls.line3

/-- `line[i]` replaced. -/
def Lines.set (ls : Lines) (i : Fin 4) (L : ButtonLine) : Lines :=
  match i with
  | 0 => { ls with line0 := L }
  | 1 => { ls with line1 := L }
  | 2 => { ls with line2 := L }
  | 3 => { ls with line3 := L }

/-! ### Encodings of internal names -/

/-- The 3-bit code of a phase (10_state.md R27). -/
def Phase.code : Phase → BitVec 3
  | .waitStart => 0
  | .readLenHigh => 1
  | .readLenLow => 2
  | .readBody => 3
  | .readChecksum => 4

/-- The phase a register value stands for; the spare codes 5, 6 and 7 are treated as `WaitStart` (R27, U9, log 18). -/
def Phase.ofCode (v : BitVec 3) : Phase :=
  if v = 1 then .readLenHigh
  else if v = 2 then .readLenLow
  else if v = 3 then .readBody
  else if v = 4 then .readChecksum
  else .waitStart

/-- The code of a drop cause (60_exceptions.md R240). -/
def Drop.code : Drop → Nat
  | .badStart => 1
  | .lenOversize => 2
  | .lenZero => 3
  | .badChecksum => 4
  | .idleTimeout => 5

/-- The bytes an effect puts on the TX stream (20_memory.md R63). -/
def Effect.txBytes : Effect → List Byte
  | .tx bytes => bytes
  | .displayText _ => []
  | .statusText _ => []
  | .setLeds _ => []
  | .clearDisplay => []
  | .setButtonLabels _ => []
  | .bridgeDisconnected => []

end Sys2Proof.Machine
end

