-- ==== Sys2Proof/Machine/Flags.lean ====
section
/-! DEFINITION. The conditions the block tests: the modular time difference and the four interval tests
(00_scope.md R10, R12; 60_exceptions.md R264), the saturating count, and the length tests of 41_parser.md R145. -/

namespace Sys2Proof.Machine

/-- `elapsed(now, t) = (now - t) mod 2^TIME_W` (R10). -/
def elapsed (c : Cfg) (now t : Nat) : Nat := (now + (2 ^ c.timeW - t % 2 ^ c.timeW)) % 2 ^ c.timeW

/-- `(now - d) mod 2^TIME_W`, the time `d` milliseconds before `now` (44_debounce.md R201). -/
def timeBefore (c : Cfg) (now : Nat) (d : Nat) : Nat := elapsed c now d

/-- `sat_inc(c) = min(c + 1, 2^CNT_W - 1)` (R10). -/
def satInc (c : Cfg) (n : Nat) : Nat := min (n + 1) (2 ^ c.cntW - 1)

/-- Idle timeout: strictly more than `IDLE_TIMEOUT_MS` since the last byte (41_parser.md R141). -/
def idleExpired (c : Cfg) (now t : Nat) : Bool := decide (c.idleTimeoutMs < elapsed c now t)

/-- Silence: strictly more than `SILENCE_MS` since the last valid frame (42_session.md R171). -/
def silenceExpired (c : Cfg) (now t : Nat) : Bool := decide (c.silenceMs < elapsed c now t)

/-- Heartbeat due: at least `HEARTBEAT_MS` since the last one (43_dispatcher.md R191). -/
def heartbeatDue (c : Cfg) (now t : Nat) : Bool := decide (c.heartbeatMs ≤ elapsed c now t)

/-- Quiet period running: less than `QUIET_MS` since the last report (44_debounce.md R204). -/
def inQuiet (c : Cfg) (now t : Nat) : Bool := decide (elapsed c now t < c.quietMs)

/-- "late" of 41_parser.md R153: a byte that finds a frame in progress and comes after the idle timeout. -/
def isLate (now : Nat) (s : State) : Bool := s.phase != .waitStart && idleExpired s.cfg now s.tLastByte

/-- `body_len > MAX_BODY`, unsigned (R145). -/
def lenTooLong (c : Cfg) (len : BitVec 16) : Bool := decide (c.maxBody < len.toNat)

/-- `body_len = 0` (R145). -/
def lenIsZero (len : BitVec 16) : Bool := decide (len.toNat = 0)

/-- The match counter reaches the threshold (R204). -/
def threshReached (c : Cfg) (n : Nat) : Bool := decide (c.matchThresh ≤ n)

end Sys2Proof.Machine
end

