-- ==== Sys2Proof/Machine/Ops.lean ====
section
/-! DEFINITION. The named operations over memory, registers and outputs that the meanings share: reads and writes of
BUF, the effect list, and the entry into a drop. -/

namespace Sys2Proof.Machine

/-- What one operation answers. -/
abbrev Out := Host.Outcome State Fault Refusal

/-- One operation after another: the second sees the state the first left (20_memory.md R70). -/
def andThen (o : Out) (k : State → Out) : Out :=
  match o with
  | .next s => k s
  | .fault f => .fault f
  | .refused r => .refused r

/-- `require inited = 1` (45_system.md R223). -/
def requireInit (s : State) (o : Out) : Out := if s.inited then o else .refused .notInitialised

/-! ### BUF -/

/-- The byte at address `a`, if it holds a value. -/
def Memory.read (m : Memory) (a : Nat) : Option Byte :=
  match m with
  | [] => none
  | (k, v) :: rest => if k = a then some v else Memory.read rest a

/-- Store one byte, keeping the addresses strictly rising. -/
def Memory.write (m : Memory) (a : Nat) (v : Byte) : Memory :=
  match m with
  | [] => [(a, v)]
  | (k, w) :: rest =>
    if a < k then (a, v) :: (k, w) :: rest
    else if a = k then (a, v) :: rest
    else (k, w) :: Memory.write rest a v

/-- `MemRead(BUF, a, 1)` (00_scope.md R10): the index must exist (20_memory.md R61) and the byte must hold a value
(10_state.md R26). -/
def bufRead (s : State) (a : Nat) : Except Fault Byte :=
  if s.cfg.maxBody ≤ a then .error (.bufNoIndex a)
  else
    match s.buf.read a with
    | some v => .ok v
    | none => .error (.bufNoValue a)

/-- `n` bytes of BUF from index `a`. -/
def bufBytes (s : State) (a n : Nat) : Except Fault (List Byte) :=
  match n with
  | 0 => .ok []
  | n + 1 =>
    match bufRead s a with
    | .error f => .error f
    | .ok v =>
      match bufBytes s (a + 1) n with
      | .error f => .error f
      | .ok vs => .ok (v :: vs)

/-- `BUF[a..b)` (R10). -/
def bufSlice (s : State) (a b : Nat) : Except Fault (List Byte) := bufBytes s a (b - a)

/-- `MemWrite(BUF, a, 1, v)` (R10): an index of `MAX_BODY` or above does not exist (R61). -/
def bufWrite (s : State) (a : Nat) (v : Byte) : Out :=
  if s.cfg.maxBody ≤ a then .fault (.bufNoIndex a) else .next { s with buf := s.buf.write a v }

/-- Go on with what was read, or stop with the fault. -/
def onRead {α : Type} (r : Except Fault α) (k : α → Out) : Out :=
  match r with
  | .ok v => k v
  | .error f => .fault f

/-! ### Outputs of a step -/

/-- The start of a step: the outputs of the step before are gone (00_scope.md R11; log 15). -/
def State.beginStep (s : State) : State := { s with effects := [], drops := [], result := none }

/-- `emit E` (R10): appended to the effect list; a `Tx` effect also extends the TX stream (20_memory.md R63), and is
always accepted (43_dispatcher.md R192, log 20). -/
def State.emit (s : State) (e : Effect) : State :=
  { s with effects := s.effects ++ [e], tx := s.tx ++ e.txBytes }

/-- The answer of a FUNCTION or QUERY row (log 13). -/
def State.answer (s : State) (r : Result) : State := { s with result := some r }

/-! ### Drop entry -/

/-- Drop entry, this block's exception entry (60_exceptions.md R255): `phase <- WaitStart` and nothing else. Nothing is
saved, there is no vector, no mode and no mask. The cause goes to the diagnostic output, which no rule reads (R241).
There is no return from a drop (R256), so no operation stands beside this one. -/
def takeDrop (d : Drop) (s : State) : State := { s with phase := .waitStart, drops := s.drops ++ [d] }

end Sys2Proof.Machine
end

