-- ==== Sys2Proof/Machine/Codec.lean ====
section
/-! DEFINITION. The two FUNCTION rows of the frame codec (40_codec.md). -/

namespace Sys2Proof.Machine

/-- `XORFOLD(bs)` (R130). No state is read or written; the byte is the answer of the step. -/
def execXorfold (bs : List Byte) (s : State) : Out := .next (s.beginStep.answer (.byte (xorFold bs)))

/-- `ENCODE(kind, payload)` (R131); beyond its domain it is not defined (R132, log 14). -/
def execEncode (kind : Byte) (payload : List Byte) (s : State) : Out :=
  if encodeDomain payload then .next (s.beginStep.answer (.bytes (frameOf kind payload)))
  else .refused .encodeDomain

end Sys2Proof.Machine
end

