-- ==== Sys2Proof/Machine/Dispatcher.lean ====
section
/-! DEFINITION. The message dispatcher (43_dispatcher.md): the mux from a validated frame to one action, and the
outbound frames. -/

namespace Sys2Proof.Machine

/-! ### Inbound: DISPATCH -/

/-- `SET_BUTTON_LABELS` (R185): no action when the payload does not hold four strings. -/
def dispatchLabels (payload : List Byte) (s : State) : State :=
  match labelSplit s.cfg payload with
  | some labels => s.emit (.setButtonLabels labels)
  | none => s

/-- `DISPATCH(kind, payload)` (R180 to R187). The two outbound kinds and every unknown kind give no action. -/
def dispatch (kind : Byte) (payload : List Byte) (s : State) : State :=
  if kind = s.cfg.kDisplayText then s.emit (.displayText payload)
  else if kind = s.cfg.kStatusText then s.emit (.statusText payload)
  else if kind = s.cfg.kSetLeds then s.emit (.setLeds (quadruples payload))
  else if kind = s.cfg.kClearDisplay then s.emit .clearDisplay
  else if kind = s.cfg.kSetButtonLabels then dispatchLabels payload s
  else s

/-! ### Outbound -/

/-- `SEND_BUTTON_EVENT(index, pressed)` (R189): one `Tx` effect, no state. -/
def sendButton (index : Fin 4) (pressed : Bool) (s : State) : State :=
  s.emit (.tx (frameOf s.cfg.kButtonEvent (buttonPayload index pressed)))

/-- `SEND_HEARTBEAT(status)` (R190): one `Tx` effect, no state. -/
def sendBeat (status : Byte) (s : State) : State :=
  s.emit (.tx (frameOf s.cfg.kHeartbeat (heartbeatPayload status)))

/-- `HEARTBEAT_CHECK(now, status)` after its `require` (R191): the timer restarts from `now`. -/
def beatCheck (now : Nat) (status : Byte) (s : State) : State :=
  if heartbeatDue s.cfg now s.tLastHb then sendBeat status { s with tLastHb := now } else s

/-- `SEND_BUTTON_EVENT`, op 5: defined at any time (45_system.md R223). -/
def execSendButtonEvent (index : Fin 4) (pressed : Bool) (s : State) : Out :=
  .next (sendButton index pressed s.beginStep)

/-- `SEND_HEARTBEAT`, op 6: defined at any time (45_system.md R223). -/
def execSendHeartbeat (status : Byte) (s : State) : Out := .next (sendBeat status s.beginStep)

/-- `HEARTBEAT_CHECK`, op 4 (R191). -/
def execHeartbeatCheck (now : Nat) (status : Byte) (s : State) : Out :=
  requireInit s (.next (beatCheck now status s.beginStep))

end Sys2Proof.Machine
end

