-- ==== Sys2Proof/Machine/Debounce.lean ====
section
/-! DEFINITION. The input debounce engine (44_debounce.md): calibration, the per-line step and `SAMPLE_TICK`. -/

namespace Sys2Proof.Machine

/-- Calibration of one line (R201): idle high is active-low; the line starts released, with no quiet period running. -/
def calibrated (c : Cfg) (level : Bool) (now : Nat) : ButtonLine where
  activeLow := level
  cand      := false
  reported  := false
  cnt       := 1
  tRep      := timeBefore c now c.quietMs

/-- The consecutive-match filter (R204): equal counts up and saturates, different restarts the run at 1. -/
def filterSample (c : Cfg) (v : Bool) (L : ButtonLine) : ButtonLine :=
  if v = L.cand then { L with cnt := satInc c L.cnt } else { L with cnt := 1, cand := v }

/-- The edge detector (R204): threshold reached, filtered value not the reported one, quiet period over. -/
def reportDue (c : Cfg) (quiet : Bool) (L : ButtonLine) : Bool :=
  threshReached c L.cnt && L.cand != L.reported && !quiet

/-- `LINE_STEP` as a function of the line alone (R204): the new record, and the state reported if one is. -/
def lineStep (c : Cfg) (level : Bool) (now : Nat) (L : ButtonLine) : ButtonLine × Option Bool :=
  let quiet := inQuiet c now L.tRep
  if c.quietMode = .freeze && quiet then (L, none)
  else
    let F := filterSample c (correctedSample L level) L
    if reportDue c quiet F then ({ F with reported := F.cand, tRep := now }, some F.cand) else (F, none)

/-- `LINE_STEP(i, levels[i], now)` on the block: line `i` is stepped, a report is sent as a button event. -/
def stepLine (i : Fin 4) (levels : BitVec 4) (now : Nat) (s : State) : State :=
  let r := lineStep s.cfg (rawLevel levels i) now (s.lines.get i)
  let s' := { s with lines := s.lines.set i r.1 }
  match r.2 with
  | some pressed => sendButton i pressed s'
  | none => s'

/-- `SAMPLE_TICK(levels, now)` after its `require` (R202): the lines in ascending order. -/
def sampleLines (levels : BitVec 4) (now : Nat) (s : State) : State :=
  stepLine 3 levels now (stepLine 2 levels now (stepLine 1 levels now (stepLine 0 levels now s)))

/-- `SAMPLE_TICK`, op 2 (R202). -/
def execSampleTick (levels : BitVec 4) (now : Nat) (s : State) : Out :=
  requireInit s (.next (sampleLines levels now s.beginStep))

end Sys2Proof.Machine
end

