-- ==== Sys2Proof/Machine/Session.lean ====
section
/-! DEFINITION. The bridge session tracker (42_session.md). -/

namespace Sys2Proof.Machine

/-- The liveness update of a valid frame (R170), whatever its kind. -/
def markAlive (now : Nat) (s : State) : State := { s with tLastValid := now, connected := true }

/-- `SESSION_CHECK(now)` after its `require` (R171): one notification, and only on the change from 1 to 0. -/
def silenceCheck (now : Nat) (s : State) : State :=
  if s.connected && silenceExpired s.cfg now s.tLastValid then
    { s with connected := false }.emit .bridgeDisconnected
  else s

/-- `SESSION_CHECK`, op 3 (R171). -/
def execSessionCheck (now : Nat) (s : State) : Out := requireInit s (.next (silenceCheck now s.beginStep))

/-- `BRIDGE_CONNECTED` (R173): the level output `connected`; defined at any time, changes no state. -/
def execBridgeConnected (s : State) : Out := .next (s.beginStep.answer (.bit s.connected))

end Sys2Proof.Machine
end

