-- ==== Sys2Proof/Machine/Parser.lean ====
section
/-! DEFINITION. The frame parser (41_parser.md): the operation `RX_BYTE`, its transitions, and `RXS`. -/

namespace Sys2Proof.Machine

/-- The idle-timeout pre-step (R141): a late byte drops the partial frame before it is interpreted. -/
def idlePreStep (now : Nat) (s : State) : State := if isLate now s then takeDrop .idleTimeout s else s

/-- `WaitStart` (R143). -/
def waitStartByte (b : Byte) (s : State) : State :=
  if b = Config.marker then { s with cursor := 0, phase := .readLenHigh } else takeDrop .badStart s

/-- `ReadLenHigh` (R144): no bound check on the high byte alone. -/
def lenHighByte (b : Byte) (s : State) : State := { s with bodyLen := lenOf b 0x00, phase := .readLenLow }

/-- The bound check on the assembled length (R145): oversize first, then zero (60_exceptions.md R252). -/
def boundCheck (s : State) : State :=
  if lenTooLong s.cfg s.bodyLen then takeDrop .lenOversize s
  else if lenIsZero s.bodyLen then takeDrop .lenZero s
  else { s with phase := .readBody }

/-- `ReadLenLow` (R145). -/
def lenLowByte (b : Byte) (s : State) : State := boundCheck { s with bodyLen := lenOf (lenHi s.bodyLen) b }

/-- The cursor moves on after a store, in 16 bits, and the body may be complete (R146). -/
def advanceCursor (s : State) : State :=
  let s' := { s with cursor := s.cursor + 1 }
  if s'.cursor = s'.bodyLen then { s' with phase := .readChecksum } else s'

/-- `ReadBody` (R146). -/
def bodyByte (b : Byte) (s : State) : Out :=
  andThen (bufWrite s s.cursor.toNat b) fun s' => .next (advanceCursor s')

/-- `ReadChecksum`, match (R148): liveness, dispatch and the return to `WaitStart`, in one step. -/
def acceptFrame (now : Nat) (s : State) : Out :=
  onRead (bufRead s 0) fun kind =>
    onRead (bufSlice s 1 s.bodyLen.toNat) fun payload =>
      .next { dispatch kind payload (markAlive now s) with phase := .waitStart }

/-- `ReadChecksum` (R147, R149). -/
def checksumByte (b : Byte) (now : Nat) (s : State) : Out :=
  onRead (bufSlice s 0 s.bodyLen.toNat) fun body =>
    if b = xorFold body then acceptFrame now s else .next (takeDrop .badChecksum s)

/-- The one transition of a byte, chosen by `phase` (R140). -/
def transition (b : Byte) (now : Nat) (s : State) : Out :=
  match s.phase with
  | .waitStart => .next (waitStartByte b s)
  | .readLenHigh => .next (lenHighByte b s)
  | .readLenLow => .next (lenLowByte b s)
  | .readBody => bodyByte b s
  | .readChecksum => checksumByte b now s

/-- `RX_BYTE(b, now)` (R140): pre-step, timestamp (R142), one transition. -/
def rxByte (b : Byte) (now : Nat) (s : State) : Out :=
  requireInit s (transition b now { idlePreStep now s with tLastByte := now })

/-- One `RX_BYTE` per byte, in arrival order, each at its own time (30_encoding.md R113, 45_system.md R226). -/
def rxAll (rx : List (Byte × Nat)) (s : State) : Out :=
  match rx with
  | [] => .next s
  | (b, now) :: rest => andThen (rxByte b now s) (rxAll rest)

/-- Bytes that all arrive at one `now` (R112). -/
def rxBurst (bs : List Byte) (now : Nat) (s : State) : Out := rxAll (bs.map fun b => (b, now)) s

/-- `RX_BYTE`, op 1. -/
def execRxByte (b : Byte) (now : Nat) (s : State) : Out := rxByte b now s.beginStep

/-- `RXS` (R113). -/
def execRxs (bs : List Byte) (now : Nat) (s : State) : Out := rxBurst bs now s.beginStep

end Sys2Proof.Machine
end

