-- ==== Sys2Proof/Machine/Frames.lean ====
section
/-! DEFINITION. The FRAME rows: a frame as it arrives on the wire. "A frame is written FRAME(kind, [..]) and means the
byte string" (30_encoding.md R112), and bytes are received by `RX_BYTE`, so a frame row receives its bytes one by one
(log 11). What its kind does is in `dispatch`. -/

namespace Sys2Proof.Machine

/-- Receive the bytes of a frame of kind `kind` (R91). -/
def receiveFrame (kind : Byte) (len : BitVec 16) (tail : List Byte) (now : Nat) (s : State) : Out :=
  rxBurst (wireBytes kind len tail) now s.beginStep

/-- `DISPLAY_TEXT` (43_dispatcher.md R181). -/
def execDisplayText (len : BitVec 16) (tail : List Byte) (now : Nat) (s : State) : Out :=
  receiveFrame s.cfg.kDisplayText len tail now s

/-- `STATUS_TEXT` (R182). -/
def execStatusText (len : BitVec 16) (tail : List Byte) (now : Nat) (s : State) : Out :=
  receiveFrame s.cfg.kStatusText len tail now s

/-- `SET_LEDS` (R183). -/
def execSetLeds (len : BitVec 16) (tail : List Byte) (now : Nat) (s : State) : Out :=
  receiveFrame s.cfg.kSetLeds len tail now s

/-- `CLEAR_DISPLAY` (R184). -/
def execClearDisplay (len : BitVec 16) (tail : List Byte) (now : Nat) (s : State) : Out :=
  receiveFrame s.cfg.kClearDisplay len tail now s

/-- `SET_BUTTON_LABELS` (R185). -/
def execSetButtonLabels (len : BitVec 16) (tail : List Byte) (now : Nat) (s : State) : Out :=
  receiveFrame s.cfg.kSetButtonLabels len tail now s

/-- `BUTTON_EVENT` received inbound (R187). -/
def execButtonEvent (len : BitVec 16) (tail : List Byte) (now : Nat) (s : State) : Out :=
  receiveFrame s.cfg.kButtonEvent len tail now s

/-- `HEARTBEAT` received inbound (R187). -/
def execHeartbeat (len : BitVec 16) (tail : List Byte) (now : Nat) (s : State) : Out :=
  receiveFrame s.cfg.kHeartbeat len tail now s

/-- `UNKNOWN_KIND` (R186). -/
def execUnknownKind (len : BitVec 16) (kind : Byte) (tail : List Byte) (now : Nat) (s : State) : Out :=
  receiveFrame kind len tail now s

end Sys2Proof.Machine
end

