-- ==== Sys2Proof/Machine/System.lean ====
section
/-! DEFINITION. System operations (45_system.md): `INIT`, `NOP` and the composite `POLL_CYCLE`. -/

namespace Sys2Proof.Machine

/-- The four lines calibrated from their idle levels (44_debounce.md R201). -/
def calibratedLines (c : Cfg) (levels : BitVec 4) (now : Nat) : Lines :=
  ⟨calibrated c (rawLevel levels 0) now, calibrated c (rawLevel levels 1) now,
    calibrated c (rawLevel levels 2) now, calibrated c (rawLevel levels 3) now⟩

/-- The registers after `INIT` (R221); BUF is not written and nothing is emitted. -/
def initialised (levels : BitVec 4) (now : Nat) (s : State) : State :=
  { s with
    phase := .waitStart, cursor := 0, bodyLen := 0, tLastByte := now, tLastValid := now, connected := false,
    tLastHb := now, lines := calibratedLines s.cfg levels now, inited := true }

/-- `INIT`, op 7 (R221, R222): defined in every state. -/
def execInit (levels : BitVec 4) (now : Nat) (s : State) : Out := .next (initialised levels now s.beginStep)

/-- `NOP`, op 0 (R224). -/
def execNop (s : State) : Out := .next s.beginStep

/-- The sampling line of a poll cycle, which a cycle may leave out (R226). -/
def cycleTick (tick : Option (BitVec 4 × Nat)) (s : State) : Out :=
  match tick with
  | some (levels, now) => requireInit s (.next (sampleLines levels now s))
  | none => .next s

/-- The silence-check line of a poll cycle, which a cycle may leave out (R226). -/
def cycleSilence (silence : Option Nat) (s : State) : Out :=
  match silence with
  | some now => requireInit s (.next (silenceCheck now s))
  | none => .next s

/-- The heartbeat-check line of a poll cycle, which a cycle may leave out (R226). -/
def cycleBeat (beat : Option (Nat × Byte)) (s : State) : Out :=
  match beat with
  | some (now, status) => requireInit s (.next (beatCheck now status s))
  | none => .next s

/-- `POLL_CYCLE` (R226): drain the received bytes, sample, check the silence, check the heartbeat. Its effects are those
of its operations in order (log 19). -/
def execPollCycle (rx : List (Byte × Nat)) (tick : Option (BitVec 4 × Nat)) (silence : Option Nat)
    (beat : Option (Nat × Byte)) (s : State) : Out :=
  andThen (andThen (andThen (rxAll rx s.beginStep) (cycleTick tick)) (cycleSilence silence)) (cycleBeat beat)

end Sys2Proof.Machine
end

