-- ==== Sys2Proof/Machine/Dispatch.lean ====
section
/-! DEFINITION. The meaning of every instruction, one arm per constructor of Instr. -/

namespace Sys2Proof.Machine

def exec (i : Instr) (s : State) : Host.Outcome State Fault Refusal :=
  match i with
  | .nop => Sys2Proof.Machine.execNop s
  | .rxByte b now => Sys2Proof.Machine.execRxByte b now s
  | .sampleTick levels now => Sys2Proof.Machine.execSampleTick levels now s
  | .sessionCheck now => Sys2Proof.Machine.execSessionCheck now s
  | .heartbeatCheck now status => Sys2Proof.Machine.execHeartbeatCheck now status s
  | .sendButtonEvent index pressed => Sys2Proof.Machine.execSendButtonEvent index pressed s
  | .sendHeartbeat status => Sys2Proof.Machine.execSendHeartbeat status s
  | .init levels now => Sys2Proof.Machine.execInit levels now s
  | .displayText len tail now => Sys2Proof.Machine.execDisplayText len tail now s
  | .statusText len tail now => Sys2Proof.Machine.execStatusText len tail now s
  | .setLeds len tail now => Sys2Proof.Machine.execSetLeds len tail now s
  | .clearDisplay len tail now => Sys2Proof.Machine.execClearDisplay len tail now s
  | .setButtonLabels len tail now => Sys2Proof.Machine.execSetButtonLabels len tail now s
  | .buttonEvent len tail now => Sys2Proof.Machine.execButtonEvent len tail now s
  | .heartbeat len tail now => Sys2Proof.Machine.execHeartbeat len tail now s
  | .unknownKind len kind tail now => Sys2Proof.Machine.execUnknownKind len kind tail now s
  | .xorfold bs => Sys2Proof.Machine.execXorfold bs s
  | .encode kind payload => Sys2Proof.Machine.execEncode kind payload s
  | .bridgeConnected => Sys2Proof.Machine.execBridgeConnected s
  | .rxs bs now => Sys2Proof.Machine.execRxs bs now s
  | .pollCycle rx tick silence beat => Sys2Proof.Machine.execPollCycle rx tick silence beat s

end Sys2Proof.Machine
end

