-- ==== Sys2Proof/Machine/Step.lean ====
section
/-! DEFINITION. One step of the block: take the next input, decode it, run it (00_scope.md R11, 45_system.md R229). -/

namespace Sys2Proof.Machine

/-- One operation. The input is taken from the front of `pending`. With nothing pending the command port is idle, and
an idle port selects `NOP` (92_eei_decisions.md D2; DEDUCED, log 9). -/
def step (s : State) : Host.Outcome State Fault Refusal :=
  match s.pending with
  | [] => exec .nop s
  | inp :: rest => exec (decode s.cfg inp) { s with pending := rest }

/-- The state with the instruction of a table word as its next input (log 8, log 17). A word that is no row's changes
nothing. -/
def State.withFetchWord (s : State) (nbits w : Nat) : State :=
  match tableInput nbits w with
  | some inp => { s with pending := inp :: s.pending }
  | none => s

end Sys2Proof.Machine
end

