-- ==== Sys2Proof/Safety.lean ====
section
/-! DEFINITION. What counts as a safe run, in the terms the claims use: the invariant of 10_state.md R29 with the
register widths of R20, the bytes of BUF an operation stores to, and runs of several operations. -/

namespace Sys2Proof.Machine

/-! ### The invariant -/

/-- The first `n` bytes of BUF hold a value. -/
def State.holdsBytes (s : State) (n : Nat) : Prop := ∀ a, a < n → (s.buf.read a).isSome

/-- What each phase says of the parser registers (R29). -/
def State.parserInv (s : State) : Prop :=
  match s.phase with
  | .waitStart => True
  | .readLenHigh => s.cursor = 0
  | .readLenLow => s.cursor = 0 ∧ lenLo s.bodyLen = 0
  | .readBody =>
    (1 ≤ s.bodyLen.toNat ∧ s.bodyLen.toNat ≤ s.cfg.maxBody) ∧ s.cursor.toNat < s.bodyLen.toNat ∧
      s.holdsBytes s.cursor.toNat
  | .readChecksum =>
    (1 ≤ s.bodyLen.toNat ∧ s.bodyLen.toNat ≤ s.cfg.maxBody) ∧ s.cursor = s.bodyLen ∧
      s.holdsBytes s.bodyLen.toNat

/-- BUF is in canonical form and lists existing indices only (20_memory.md R61). -/
def State.bufInv (s : State) : Prop := s.buf.wf ∧ ∀ p ∈ s.buf, p.1 < s.cfg.maxBody

/-- The timestamps fit `TIME_W` bits (R33). -/
def State.timesInv (s : State) : Prop :=
  s.tLastByte < 2 ^ s.cfg.timeW ∧ s.tLastValid < 2 ^ s.cfg.timeW ∧ s.tLastHb < 2 ^ s.cfg.timeW

/-- A line's registers fit their widths (R38, R39), and after `INIT` its count is at least 1 (44_debounce.md R205). -/
def ButtonLine.inv (c : Cfg) (inited : Bool) (L : ButtonLine) : Prop :=
  L.tRep < 2 ^ c.timeW ∧ L.cnt ≤ 2 ^ c.cntW - 1 ∧ (inited = true → 1 ≤ L.cnt)

/-- Before the first `INIT` the parser waits and the session is not connected (45_system.md R220). -/
def State.powerOnInv (s : State) : Prop := s.inited = false → s.phase = .waitStart ∧ s.connected = false

/-- The invariant of the machine. -/
structure State.Inv (s : State) : Prop where
  legal  : s.cfg.Legal
  parser : s.parserInv
  buf    : s.bufInv
  times  : s.timesInv
  lines  : ∀ i, (s.lines.get i).inv s.cfg s.inited
  power  : s.powerOnInv

/-! ### Which bytes of BUF an operation stores to -/

/-- The index of BUF that `RX_BYTE` at `now` stores to (20_memory.md R68): `cursor`, if the byte is interpreted in
`ReadBody`. -/
def storeIndex (now : Nat) (s : State) : Option Nat :=
  if s.phase = .readBody ∧ isLate now s = false then some s.cursor.toNat else none

/-- The indices of BUF that a sequence of received bytes stores to, each computed in the state the byte meets. -/
def storeIndices (rx : List (Byte × Nat)) (s : State) : List Nat :=
  match rx with
  | [] => []
  | (b, now) :: rest =>
    (storeIndex now s).toList ++
      (match rxByte b now s with
       | .next t => storeIndices rest t
       | _ => [])

/-- The bytes an operation receives, with their times: those it feeds to `RX_BYTE` (30_encoding.md R112, R113;
45_system.md R226). -/
def receivedBytes (c : Cfg) (i : Instr) : List (Byte × Nat) :=
  match i with
  | .nop | .sampleTick _ _ | .sessionCheck _ | .heartbeatCheck _ _ | .sendButtonEvent _ _ | .sendHeartbeat _
  | .init _ _ | .xorfold _ | .encode _ _ | .bridgeConnected => []
  | .rxByte b now => [(b, now)]
  | .displayText len tail now => (wireBytes c.kDisplayText len tail).map fun b => (b, now)
  | .statusText len tail now => (wireBytes c.kStatusText len tail).map fun b => (b, now)
  | .setLeds len tail now => (wireBytes c.kSetLeds len tail).map fun b => (b, now)
  | .clearDisplay len tail now => (wireBytes c.kClearDisplay len tail).map fun b => (b, now)
  | .setButtonLabels len tail now => (wireBytes c.kSetButtonLabels len tail).map fun b => (b, now)
  | .buttonEvent len tail now => (wireBytes c.kButtonEvent len tail).map fun b => (b, now)
  | .heartbeat len tail now => (wireBytes c.kHeartbeat len tail).map fun b => (b, now)
  | .unknownKind len kind tail now => (wireBytes kind len tail).map fun b => (b, now)
  | .rxs bs now => bs.map fun b => (b, now)
  | .pollCycle rx _ _ _ => rx

/-- The operations that only receive: `RX_BYTE`, `RXS` and the frame rows. -/
def receivesOnly (i : Instr) : Bool :=
  match i with
  | .nop | .sampleTick _ _ | .sessionCheck _ | .heartbeatCheck _ _ | .sendButtonEvent _ _ | .sendHeartbeat _
  | .init _ _ | .xorfold _ | .encode _ _ | .bridgeConnected | .pollCycle _ _ _ _ => false
  | .rxByte _ _ | .displayText _ _ _ | .statusText _ _ _ | .setLeds _ _ _ | .clearDisplay _ _ _
  | .setButtonLabels _ _ _ | .buttonEvent _ _ _ | .heartbeat _ _ _ | .unknownKind _ _ _ _ | .rxs _ _ => true

/-- Byte `b`, received at `now` in state `u`, is the last byte of a valid frame with the body `body`: it is on time, finds
the parser in `ReadChecksum` and equals the fold of the stored body (41_parser.md R147, R148). -/
def completesFrame (b : Byte) (now : Nat) (u : State) (body : List Byte) : Prop :=
  u.phase = .readChecksum ∧ isLate now u = false ∧ bufSlice u 0 u.bodyLen.toNat = .ok body ∧ b = xorFold body

/-! ### Runs of several operations -/

/-- The outputs of two steps, in order (00_scope.md R11). -/
def joinOutputs (s t : State) : State :=
  { t with effects := s.effects ++ t.effects, drops := s.drops ++ t.drops }

/-- Several operations one after another, with the outputs of all of them. -/
def runOps (is : List Instr) (s : State) : Out :=
  match is with
  | [] => .next s.beginStep
  | i :: rest =>
    andThen (exec i s) fun t => andThen (runOps rest t) fun u => .next (joinOutputs t u)

/-- The parser will interpret a byte that arrives at `now` in `WaitStart`: it waits already, or the byte is late
(41_parser.md R141). -/
def ready (now : Nat) (s : State) : Prop := s.phase = .waitStart ∨ isLate now s = true

/-- The drop that a late first byte causes (R141), none if the parser waits already. -/
def entryDrops (now : Nat) (s : State) : List Drop := if isLate now s then [.idleTimeout] else []

/-- No gap of more than `IDLE_TIMEOUT_MS` between bytes that arrive at these times, the first one after `t`
(41_parser.md R154). -/
def noGap (c : Cfg) (t : Nat) (times : List Nat) : Prop :=
  match times with
  | [] => True
  | now :: rest => idleExpired c now t = false ∧ noGap c now rest

/-- The action of a validated frame (43_dispatcher.md R180 to R187): one effect for the five inbound kinds, none for any
other kind, and none for labels that the payload does not hold. -/
def actionOf (c : Cfg) (kind : Byte) (payload : List Byte) : List Effect :=
  if kind = c.kDisplayText then [.displayText payload]
  else if kind = c.kStatusText then [.statusText payload]
  else if kind = c.kSetLeds then [.setLeds (quadruples payload)]
  else if kind = c.kClearDisplay then [.clearDisplay]
  else if kind = c.kSetButtonLabels then ((labelSplit c payload).map Effect.setButtonLabels).toList
  else []

/-- Line `L` reports on a tick at `now` whose corrected sample is `v` and whose count becomes `n`: the edge test of
44_debounce.md R204. -/
def edgeAt (c : Cfg) (now : Nat) (L : ButtonLine) (v : Bool) (n : Nat) : Prop :=
  c.matchThresh ≤ n ∧ v ≠ L.reported ∧ c.quietMs ≤ elapsed c now L.tRep

/-- The count of line `L` after a tick whose corrected sample is `v` (R204). -/
def countAfter (c : Cfg) (L : ButtonLine) (v : Bool) : Nat :=
  if v = L.cand then min (L.cnt + 1) (2 ^ c.cntW - 1) else 1

/-- The line is ignored: `FREEZE` and the quiet period runs (R204). -/
def frozenAt (c : Cfg) (now : Nat) (L : ButtonLine) : Prop :=
  c.quietMode = .freeze ∧ elapsed c now L.tRep < c.quietMs

/-- The button-event frame of line `i` (43_dispatcher.md R189). -/
def buttonTx (c : Cfg) (i : Fin 4) (pressed : Bool) : Effect := .tx (frameOf c.kButtonEvent (buttonPayload i pressed))

/-- Two lines that differ at most in how far their counts are above the threshold (10_state.md R38). -/
def sameUpToCount (thresh : Nat) (L M : ButtonLine) : Prop :=
  L.activeLow = M.activeLow ∧ L.cand = M.cand ∧ L.reported = M.reported ∧ L.tRep = M.tRep ∧
    min L.cnt thresh = min M.cnt thresh

/-- The block with another counter width and other line records, all else the same: parser, session, outputs, inputs. -/
def State.withCounts (s : State) (w : Nat) (ls : Lines) : State :=
  { s with cfg := { s.cfg with cntW := w }, lines := ls }

/-- Two blocks that differ at most in `CNT_W` and in how far their counts are above the threshold, which both widths can
hold (10_state.md R38). Their outputs are the same, and so are the inputs still to come. -/
def sameButForCounts (s s' : State) : Prop :=
  s' = s.withCounts s'.cfg.cntW s'.lines ∧
  (s.cfg.matchThresh ≤ 2 ^ s.cfg.cntW - 1 ∧ s.cfg.matchThresh ≤ 2 ^ s'.cfg.cntW - 1) ∧
  ∀ i, sameUpToCount s.cfg.matchThresh (s.lines.get i) (s'.lines.get i)

/-- Two operations that answer alike: both a next state, the same but for counts and with the same effects, or both the
same stop. -/
def sameOutcome (o o' : Out) : Prop :=
  match o, o' with
  | .next t, .next t' => t.effects = t'.effects ∧ sameButForCounts t t'
  | .fault f, .fault f' => f = f'
  | .refused r, .refused r' => r = r'
  | _, _ => False

/-- What the block holds after the frame of `kind` and `payload`, whose last byte arrived at `now`, was found valid and
dispatched with effects `es` (41_parser.md R146, R148): the parser waits, the session is alive, the body stands in BUF,
and nothing else changed. `pre` are the drops before the frame. -/
def frameAccepted (s : State) (kind : Byte) (payload : List Byte) (now : Nat) (pre : List Drop) (es : List Effect)
    (t : State) : Prop :=
  (t.phase = .waitStart ∧ t.connected = true ∧ t.tLastValid = now ∧ t.tLastByte = now) ∧
  (t.bodyLen.toNat = 1 + payload.length ∧ t.cursor = t.bodyLen) ∧
  (t.effects = es ∧ t.drops = pre ∧ t.result = none ∧ t.tx = s.tx) ∧
  (∀ j (h : j < (kind :: payload).length), t.buf.read j = some ((kind :: payload)[j])) ∧
  (∀ a, payload.length < a → t.buf.read a = s.buf.read a) ∧
  (t.cfg = s.cfg ∧ t.inited = s.inited ∧ t.tLastHb = s.tLastHb ∧ t.lines = s.lines ∧ t.pending = s.pending)

end Sys2Proof.Machine
end

