-- ==== Sys2Proof/Certificates/Slice0/Obligations.lean ====
section
/-! DEFINITION. The statements for the provers. Each docstring names the rule of spec/ it formalises. A statement that
computes with the model's own functions (`elapsed`, `xorFold`, `frameOf`, `quadruples`) stands beside one that says what
that function is. -/

open Sys2Proof Sys2Proof.Machine

/-! ### Reset, INIT, NOP, refusal -/

/-- R281, R283: after power-on the parser waits, the session is not connected and no byte of BUF has a value; R280:
`inited = 0`. `inited = 0` and a BUF without values are the spec's own decisions D25 and D30 (log 6). -/
def Obligations.ResetLeavesThePowerOnState : Prop :=
  State.reset.inited = false ∧ State.reset.phase = .waitStart ∧ State.reset.connected = false ∧
    ∀ a, State.reset.buf.read a = none

/-- R221 with R201 and R222: `INIT` answers from every state; every register has the value the rule gives, BUF and the
TX stream are as before, nothing is emitted and nothing dropped. The values are the spec's own decisions D20 and D25.
-/
def Obligations.InitSetsEveryRegister : Prop :=
  ∀ (levels : BitVec 4) (now : Nat) (s : State),
    exec (.init levels now) s = .next
      { s with
        effects := [], drops := [], result := none, inited := true, phase := .waitStart, cursor := 0, bodyLen := 0,
        tLastByte := now, tLastValid := now, connected := false, tLastHb := now,
        lines :=
          ⟨⟨levels[0], false, false, 1, elapsed s.cfg now s.cfg.quietMs⟩,
            ⟨levels[1], false, false, 1, elapsed s.cfg now s.cfg.quietMs⟩,
            ⟨levels[2], false, false, 1, elapsed s.cfg now s.cfg.quietMs⟩,
            ⟨levels[3], false, false, 1, elapsed s.cfg now s.cfg.quietMs⟩⟩ }

/-- R224: `NOP` answers from every state and changes nothing; its step has no outputs. `NOP` is the spec's own
decision D2; clearing the outputs is log 15. -/
def Obligations.NopChangesNothing : Prop :=
  ∀ s : State, exec .nop s = .next { s with effects := [], drops := [], result := none }

/-- R223: before the first `INIT` the four operations that require it have no next state, nor has anything that begins
with one of them: a burst, a frame row, a poll cycle that begins with a received byte, with the tick, with the silence
check or with the heartbeat check. `NOP` and the two direct sends answer. The refusal is the spec's own decision D25;
that a composite is refused as a whole is log 10 and log 19. -/
def Obligations.OperationsBeforeInitAreRefused : Prop :=
  ∀ (s : State) (b status kind : Byte) (bs tail : List Byte) (len : BitVec 16) (levels : BitVec 4) (now : Nat)
    (index : Fin 4) (pressed : Bool) (rx : List (Byte × Nat)) (tick : Option (BitVec 4 × Nat)) (silence : Option Nat)
    (beat : Option (Nat × Byte)), s.inited = false →
    (∀ i ∈ [Instr.rxByte b now, .sampleTick levels now, .sessionCheck now, .heartbeatCheck now status,
        .rxs (b :: bs) now, .displayText len tail now, .statusText len tail now, .setLeds len tail now,
        .clearDisplay len tail now, .setButtonLabels len tail now, .buttonEvent len tail now, .heartbeat len tail now,
        .unknownKind len kind tail now, .pollCycle ((b, now) :: rx) tick silence beat,
        .pollCycle [] (some (levels, now)) silence beat, .pollCycle [] none (some now) beat,
        .pollCycle [] none none (some (now, status))],
      exec i s = .refused .notInitialised) ∧
    ∀ i ∈ [Instr.nop, .sendButtonEvent index pressed, .sendHeartbeat status], ∃ t, exec i s = .next t

/-! ### Arithmetic -/

/-- R10: `elapsed(now, t) = (now - t) mod 2^TIME_W`, also when `now < t`. Modular time is the spec's own decision D3.
-/
def Obligations.ElapsedIsTheModularDifference : Prop :=
  ∀ (c : Cfg) (now t : Nat), (elapsed c now t : Int) = ((now : Int) - (t : Int)) % (2 ^ c.timeW : Int)

/-- R94 with R65: `body_len = len_hi * 256 + len_lo`, the first byte bits 15:8 and the second bits 7:0, and splitting
a length and joining it again gives it back. -/
def Obligations.LengthIsBigEndian : Prop :=
  (∀ hi lo : Byte, (lenOf hi lo).toNat = hi.toNat * 256 + lo.toNat ∧
    (∀ i, i < 8 → (lenOf hi lo).getLsbD (8 + i) = hi.getLsbD i ∧ (lenOf hi lo).getLsbD i = lo.getLsbD i) ∧
    lenHi (lenOf hi lo) = hi ∧ lenLo (lenOf hi lo) = lo) ∧
  ∀ len : BitVec 16, lenOf (lenHi len) (lenLo len) = len

/-! ### Codec -/

/-- R130: `XORFOLD` answers from every state and changes none of it: `0x00` on the empty string, the byte itself on
one byte; the fold of two strings joined is the XOR of their folds, and the order of the bytes does not matter. The
fold of the empty string is the spec's own decision D29; the place of the answer is log 13. -/
def Obligations.XorFoldAnswersTheFold : Prop :=
  (∀ (bs : List Byte) (s : State),
    exec (.xorfold bs) s = .next { s with effects := [], drops := [], result := some (.byte (xorFold bs)) }) ∧
  xorFold [] = 0x00 ∧ (∀ b, xorFold [b] = b) ∧ (∀ as bs, xorFold (as ++ bs) = xorFold as ^^^ xorFold bs) ∧
  ∀ as bs : List Byte, as.Perm bs → xorFold as = xorFold bs

/-- R131 with R132: on its domain `ENCODE` answers marker, length high byte, length low byte, kind, payload, checksum,
and changes no state. The domain above `MAX_BODY - 1` is the spec's own decision D4; the place of the answer is log
13. -/
def Obligations.EncodeAnswersTheFrame : Prop :=
  ∀ (kind : Byte) (payload : List Byte) (s : State), payload.length ≤ 65534 →
    exec (.encode kind payload) s = .next
      { s with
        effects := [], drops := [],
        result := some (.bytes ([0xAA, BitVec.ofNat 8 ((1 + payload.length) / 256),
          BitVec.ofNat 8 ((1 + payload.length) % 256), kind] ++ payload ++ [xorFold (kind :: payload)])) }

/-- R132: beyond 65534 payload bytes `ENCODE` is not defined; the model refuses it by name. The domain is the spec's
own decision D4; the refusal is the model's choice, log 14. -/
def Obligations.EncodeBeyondItsDomainIsRefused : Prop :=
  ∀ (kind : Byte) (payload : List Byte) (s : State), 65534 < payload.length →
    exec (.encode kind payload) s = .refused .encodeDomain

/-! ### Parser: one byte -/

/-- R143: in `WaitStart` a marker opens a frame, any other byte is discarded with the drop BAD_START. -/
def Obligations.WaitStartHuntsTheMarker : Prop :=
  ∀ (b : Byte) (now : Nat) (s : State), s.inited = true → s.phase = .waitStart →
    exec (.rxByte b now) s = .next
      (if b = 0xAA then
        { s with effects := [], drops := [], result := none, tLastByte := now, cursor := 0, phase := .readLenHigh }
      else { s with effects := [], drops := [.badStart], result := none, tLastByte := now })

/-- R141 with R142, R143, R151 and R252: a byte that comes strictly more than `IDLE_TIMEOUT_MS` after the one before,
while a frame is in progress, drops that frame and is then interpreted in `WaitStart`, once; no other byte does. Where
the test is made, and that the late byte is still interpreted, is the spec's own decision D9. -/
def Obligations.LateByteDropsTheFrameAndHunts : Prop :=
  (∀ (b : Byte) (now : Nat) (s : State), s.inited = true → s.phase ≠ .waitStart →
    s.cfg.idleTimeoutMs < elapsed s.cfg now s.tLastByte →
    exec (.rxByte b now) s = .next
      (if b = 0xAA then
        { s with
          effects := [], drops := [.idleTimeout], result := none, tLastByte := now, cursor := 0,
          phase := .readLenHigh }
      else
        { s with
          effects := [], drops := [.idleTimeout, .badStart], result := none, tLastByte := now, phase := .waitStart })) ∧
  ∀ (b : Byte) (now : Nat) (s t : State), exec (.rxByte b now) s = .next t →
    (.idleTimeout ∈ t.drops ↔ s.phase ≠ .waitStart ∧ s.cfg.idleTimeoutMs < elapsed s.cfg now s.tLastByte)

/-- R144: in `ReadLenHigh` the byte becomes bits 15:8 of `body_len`, bits 7:0 become 0; no bound check. That no bound
is checked yet is the spec's own decision D8. -/
def Obligations.LengthHighByteIsStored : Prop :=
  ∀ (b : Byte) (now : Nat) (s : State), s.inited = true → s.phase = .readLenHigh →
    elapsed s.cfg now s.tLastByte ≤ s.cfg.idleTimeoutMs →
    exec (.rxByte b now) s = .next
      { s with
        effects := [], drops := [], result := none, tLastByte := now, bodyLen := BitVec.ofNat 16 (b.toNat * 256),
        phase := .readLenLow }

/-- R145: in `ReadLenLow` the length is complete; above `MAX_BODY` the frame is dropped as oversize, zero as
zero-length, and otherwise the body follows. No byte of BUF is written. The drop of a zero length is the spec's own
decision D7. -/
def Obligations.LengthLowByteIsBoundChecked : Prop :=
  ∀ (b : Byte) (now : Nat) (s : State) (len : Nat), s.inited = true → s.phase = .readLenLow →
    elapsed s.cfg now s.tLastByte ≤ s.cfg.idleTimeoutMs →
    len = s.bodyLen.toNat / 256 * 256 + b.toNat →
    exec (.rxByte b now) s = .next
      (if s.cfg.maxBody < len then
        { s with
          effects := [], drops := [.lenOversize], result := none, tLastByte := now, bodyLen := BitVec.ofNat 16 len,
          phase := .waitStart }
      else if len = 0 then
        { s with
          effects := [], drops := [.lenZero], result := none, tLastByte := now, bodyLen := BitVec.ofNat 16 len,
          phase := .waitStart }
      else
        { s with
          effects := [], drops := [], result := none, tLastByte := now, bodyLen := BitVec.ofNat 16 len,
          phase := .readBody })

/-- R146 with R150: in `ReadBody` any byte, the marker value included, is stored at `cursor`; the byte that completes
the body moves the parser on to the checksum. -/
def Obligations.BodyByteIsStoredAtTheCursor : Prop :=
  ∀ (b : Byte) (now : Nat) (s : State), s.inited = true → s.phase = .readBody →
    elapsed s.cfg now s.tLastByte ≤ s.cfg.idleTimeoutMs →
    s.cursor.toNat < s.bodyLen.toNat → s.bodyLen.toNat ≤ s.cfg.maxBody →
    ∃ t, exec (.rxByte b now) s = .next t ∧
      t.buf.read s.cursor.toNat = some b ∧ (∀ a, a ≠ s.cursor.toNat → t.buf.read a = s.buf.read a) ∧
      t.cursor.toNat = s.cursor.toNat + 1 ∧
      t = { s with
        effects := [], drops := [], result := none, tLastByte := now, buf := t.buf, cursor := t.cursor,
        phase := if s.cursor.toNat + 1 = s.bodyLen.toNat then .readChecksum else .readBody }

/-- R147, R148 with R170, R180: in `ReadChecksum` a byte that equals the XOR fold of the stored body makes the frame
valid: the session is alive from `now`, the kind's action is the whole effect list, the parser waits, and nothing else
changes. That every kind refreshes the session, and the details of the actions, are the spec's own decisions D11 and
D15 to D18. -/
def Obligations.MatchingChecksumAcceptsTheFrame : Prop :=
  ∀ (b : Byte) (now : Nat) (s : State) (kind : Byte) (payload : List Byte), s.inited = true →
    s.phase = .readChecksum → elapsed s.cfg now s.tLastByte ≤ s.cfg.idleTimeoutMs →
    s.bodyLen.toNat ≤ s.cfg.maxBody → s.bodyLen.toNat = (kind :: payload).length →
    (∀ j (h : j < (kind :: payload).length), s.buf.read j = some ((kind :: payload)[j])) →
    b = xorFold (kind :: payload) →
    exec (.rxByte b now) s = .next
      { s with
        effects := actionOf s.cfg kind payload, drops := [], result := none, tLastByte := now, tLastValid := now,
        connected := true, phase := .waitStart }

/-- R149 with R151: any other byte drops the frame silently; no effect, no liveness, and the byte is not looked at
again, even if it is a marker. That a failing byte is not looked at again is the spec's own decision D8 (log 22). -/
def Obligations.WrongChecksumDropsTheFrame : Prop :=
  ∀ (b : Byte) (now : Nat) (s : State) (body : List Byte), s.inited = true →
    s.phase = .readChecksum → elapsed s.cfg now s.tLastByte ≤ s.cfg.idleTimeoutMs →
    s.bodyLen.toNat ≤ s.cfg.maxBody → s.bodyLen.toNat = body.length →
    (∀ j (h : j < body.length), s.buf.read j = some body[j]) →
    b ≠ xorFold body →
    exec (.rxByte b now) s = .next
      { s with effects := [], drops := [.badChecksum], result := none, tLastByte := now, phase := .waitStart }

/-- R61, an index of `MAX_BODY` or above does not exist, and R26, a byte that no `ReadBody` transition has written
holds no value: a store at such an index faults, and so does a checksum over such a byte, at the first one. Only
states outside the invariant do either. The faults are the model's choice, log 6 and log 7. -/
def Obligations.AccessesOutsideBufFault : Prop :=
  ∀ (b : Byte) (now : Nat) (s : State), s.inited = true → elapsed s.cfg now s.tLastByte ≤ s.cfg.idleTimeoutMs →
    (s.phase = .readBody → s.cfg.maxBody ≤ s.cursor.toNat →
      exec (.rxByte b now) s = .fault (.bufNoIndex s.cursor.toNat)) ∧
    ∀ a, s.phase = .readChecksum → a < s.bodyLen.toNat → (∀ j, j < a → (s.buf.read j).isSome) →
      (a < s.cfg.maxBody → s.buf.read a = none → exec (.rxByte b now) s = .fault (.bufNoValue a)) ∧
      (a = s.cfg.maxBody → exec (.rxByte b now) s = .fault (.bufNoIndex a))

/-- R152: `RX_BYTE` is total: every state with `inited = 1` that meets the invariant has a next state, for every byte
and every time; a malformed length and a checksum mismatch return the parser to `WaitStart`, and so does the idle
timeout, unless the late byte is itself a marker. R152 names no invariant: the premise is the model's form of R29, an
inference of the spec, and outside it the faults of log 6 and log 7 stop the byte. That a late byte is still
interpreted is the spec's own decision D9. -/
def Obligations.ReceivingAByteAlwaysAnswers : Prop :=
  ∀ (b : Byte) (now : Nat) (s : State), s.Inv → s.inited = true →
    ∃ t, exec (.rxByte b now) s = .next t ∧
      (t.drops = [] ∨ t.phase = .waitStart ∨ (t.drops = [.idleTimeout] ∧ b = 0xAA ∧ t.phase = .readLenHigh))

/-- R155: no step of the parser writes BUF at an index of `MAX_BODY` or above, whatever the state and the bytes. R155
is an inference of the spec. -/
def Obligations.NoReceivedByteIsStoredBeyondBuf : Prop :=
  ∀ (bs : List Byte) (now : Nat) (s t : State), exec (.rxs bs now) s = .next t →
    ∀ a, s.cfg.maxBody ≤ a → t.buf.read a = s.buf.read a

/-- R252 with R240: one received byte reports at most two drop causes, and two only as IDLE_TIMEOUT then BAD_START.
The two drops of one byte rest on the spec's own decisions D8 and D9. -/
def Obligations.AByteReportsAtMostTwoDrops : Prop :=
  ∀ (b : Byte) (now : Nat) (s t : State), exec (.rxByte b now) s = .next t →
    t.drops ∈ [[], [.badStart], [.lenOversize], [.lenZero], [.badChecksum], [.idleTimeout],
      [Drop.idleTimeout, .badStart]]

/-! ### Parser: whole frames -/

/-- R112, "means the byte string": executing a frame row is receiving its bytes one by one, right or wrong length and
checksum alike, from every state. That a frame row is one burst at one `now` is the model's choice, log 11. -/
def Obligations.AFrameIsTheReceptionOfItsBytes : Prop :=
  ∀ (len : BitVec 16) (tail : List Byte) (now : Nat) (kind : Byte) (s : State),
    exec (.displayText len tail now) s = exec (.rxs (wireBytes s.cfg.kDisplayText len tail) now) s ∧
    exec (.statusText len tail now) s = exec (.rxs (wireBytes s.cfg.kStatusText len tail) now) s ∧
    exec (.setLeds len tail now) s = exec (.rxs (wireBytes s.cfg.kSetLeds len tail) now) s ∧
    exec (.clearDisplay len tail now) s = exec (.rxs (wireBytes s.cfg.kClearDisplay len tail) now) s ∧
    exec (.setButtonLabels len tail now) s = exec (.rxs (wireBytes s.cfg.kSetButtonLabels len tail) now) s ∧
    exec (.buttonEvent len tail now) s = exec (.rxs (wireBytes s.cfg.kButtonEvent len tail) now) s ∧
    exec (.heartbeat len tail now) s = exec (.rxs (wireBytes s.cfg.kHeartbeat len tail) now) s ∧
    exec (.unknownKind len kind tail now) s = exec (.rxs (wireBytes kind len tail) now) s

/-- R113: `RXS` is one `RX_BYTE` per byte, all at the same `now`: same state, same outputs in order, same stop. That
the burst is one step whose outputs are joined is the model's choice, log 11 and log 15. -/
def Obligations.ABurstIsOneReceptionPerByte : Prop :=
  ∀ (bs : List Byte) (now : Nat) (s : State),
    exec (.rxs bs now) s = runOps (bs.map fun b => .rxByte b now) s

/-- R226: a poll cycle is its received bytes, then the tick, the silence check and the heartbeat check, each of which
may be left out: same state, same outputs in order, same stop. The order is the spec's own decision D24; that the
cycle is one step is log 19. -/
def Obligations.APollCycleIsItsOperationsInOrder : Prop :=
  ∀ (rx : List (Byte × Nat)) (tick : Option (BitVec 4 × Nat)) (silence : Option Nat) (beat : Option (Nat × Byte))
    (s : State),
    exec (.pollCycle rx tick silence beat) s =
      runOps
        (rx.map (fun p => .rxByte p.1 p.2) ++ (tick.map fun p => Instr.sampleTick p.1 p.2).toList ++
          (silence.map Instr.sessionCheck).toList ++ (beat.map fun p => Instr.heartbeatCheck p.1 p.2).toList) s

/-- R152 for the composites: from every state with `inited = 1` that meets the invariant a burst of any bytes, a frame
row with any length and any tail, and a poll cycle answer a next state. That these are single steps is the model's
choice, log 11 and log 19. -/
def Obligations.BurstsFramesAndCyclesAlwaysAnswer : Prop :=
  ∀ (bs tail : List Byte) (len : BitVec 16) (kind : Byte) (now : Nat) (rx : List (Byte × Nat))
    (tick : Option (BitVec 4 × Nat)) (silence : Option Nat) (beat : Option (Nat × Byte)) (s : State),
    s.Inv → s.inited = true →
    ∀ i ∈ [Instr.rxs bs now, .pollCycle rx tick silence beat, .displayText len tail now, .statusText len tail now,
        .setLeds len tail now, .clearDisplay len tail now, .setButtonLabels len tail now, .buttonEvent len tail now,
        .heartbeat len tail now, .unknownKind len kind tail now],
      ∃ t, exec i s = .next t

/-- The frame of the receiving operations (R228): `RX_BYTE`, `RXS` and the frame rows leave the heartbeat timer, the
lines, the TX stream, `inited`, the parameter and the inputs still to come as they were. R142: every `RX_BYTE`
restarts the idle timer, in every phase and whatever the byte. -/
def Obligations.ReceivingKeepsTheOtherParts : Prop :=
  ∀ (i : Instr) (s t : State), receivesOnly i = true → exec i s = .next t →
    t.cfg = s.cfg ∧ t.inited = s.inited ∧ t.tLastHb = s.tLastHb ∧ t.lines = s.lines ∧ t.tx = s.tx ∧
      t.pending = s.pending ∧ t.result = none ∧ ∀ b now, i = .rxByte b now → t.tLastByte = now

/-- R25, R68: over every operation, every byte of BUF is as before but those at the indices that the received bytes
are stored to, each index computed in the state its byte meets. An operation that receives nothing stores nothing.
That BUF is never cleared is the spec's own decision D30. -/
def Obligations.BufChangesOnlyWhereABodyByteIsStored : Prop :=
  ∀ (i : Instr) (s t : State) (a : Nat), exec i s = .next t →
    a ∉ storeIndices (receivedBytes s.cfg i) s.beginStep → t.buf.read a = s.buf.read a

/-- R228 for a poll cycle: without received bytes the parser and the session time are as before, without a tick the
lines, without a heartbeat check the heartbeat timer; `connected` changes only with received bytes or a silence check.
-/
def Obligations.APollCycleTouchesOnlyItsParts : Prop :=
  ∀ (rx : List (Byte × Nat)) (tick : Option (BitVec 4 × Nat)) (silence : Option Nat) (beat : Option (Nat × Byte))
    (s t : State), exec (.pollCycle rx tick silence beat) s = .next t →
    t.cfg = s.cfg ∧ t.inited = s.inited ∧ t.pending = s.pending ∧ t.result = none ∧
      (tick = none → t.lines = s.lines) ∧ (beat = none → t.tLastHb = s.tLastHb) ∧
      (rx = [] → t.phase = s.phase ∧ t.cursor = s.cursor ∧ t.bodyLen = s.bodyLen ∧ t.buf = s.buf ∧
        t.tLastByte = s.tLastByte ∧ t.tLastValid = s.tLastValid ∧ (silence = none → t.connected = s.connected))

/-- R181, R182 with R98 and the round trip of R133: a well-formed text frame that finds the parser waiting (or late)
is accepted, and its payload, unchanged and in order, is the text of the action. Text as opaque bytes is the spec's
own decision D15; the single `now` is log 11. -/
def Obligations.TextFramesDeliverTheirPayload : Prop :=
  ∀ (s : State) (p : List Byte) (now : Nat), s.cfg.Legal → s.inited = true → ready now s →
    p.length < s.cfg.maxBody →
    (∃ t, exec (.displayText (BitVec.ofNat 16 (1 + p.length)) (p ++ [xorFold (s.cfg.kDisplayText :: p)]) now) s =
        .next t ∧
      frameAccepted s s.cfg.kDisplayText p now (entryDrops now s) [.displayText p] t) ∧
    (∃ t, exec (.statusText (BitVec.ofNat 16 (1 + p.length)) (p ++ [xorFold (s.cfg.kStatusText :: p)]) now) s =
        .next t ∧
      frameAccepted s s.cfg.kStatusText p now (entryDrops now s) [.statusText p] t)

/-- R183 with R99: an LED frame gives one action with `floor(P / 4)` quadruples, quadruple `j` from payload bytes `4j`
to `4j + 3`; the last `P mod 4` bytes are ignored and no index is checked. The order of the bytes and the action with
no quadruple are the spec's own decision D16; the single `now` is log 11. -/
def Obligations.LedFrameDeliversItsQuadruples : Prop :=
  ∀ (s : State) (p : List Byte) (now : Nat), s.cfg.Legal → s.inited = true → ready now s →
    p.length < s.cfg.maxBody →
    ∃ t leds, exec (.setLeds (BitVec.ofNat 16 (1 + p.length)) (p ++ [xorFold (s.cfg.kSetLeds :: p)]) now) s =
        .next t ∧
      frameAccepted s s.cfg.kSetLeds p now (entryDrops now s) [.setLeds leds] t ∧
      leds.length = p.length / 4 ∧
      ∀ j, j < p.length / 4 → ∃ L, leds[j]? = some L ∧ p[4 * j]? = some L.index ∧ p[4 * j + 1]? = some L.r ∧
        p[4 * j + 2]? = some L.g ∧ p[4 * j + 3]? = some L.b

/-- R184 with R100: a clear frame gives its action whatever its payload. That a payload is ignored is the spec's own
decision D15; the single `now` is log 11. -/
def Obligations.ClearFrameIgnoresItsPayload : Prop :=
  ∀ (s : State) (p : List Byte) (now : Nat), s.cfg.Legal → s.inited = true → ready now s →
    p.length < s.cfg.maxBody →
    ∃ t, exec (.clearDisplay (BitVec.ofNat 16 (1 + p.length)) (p ++ [xorFold (s.cfg.kClearDisplay :: p)]) now) s =
        .next t ∧
      frameAccepted s s.cfg.kClearDisplay p now (entryDrops now s) [.clearDisplay] t

/-- R185 with R101: a labels frame gives the four labels that LABEL_SPLIT finds, and no action where it answers
`none`; the frame is valid either way. It holds for every LABEL_SPLIT (log 3: the unknown ones are a free value). No
action on `none` is the spec's own decision D17. -/
def Obligations.LabelsFrameDeliversFourLabelsOrNothing : Prop :=
  ∀ (s : State) (p : List Byte) (now : Nat), s.cfg.Legal → s.inited = true → ready now s →
    p.length < s.cfg.maxBody →
    ∃ t, exec (.setButtonLabels (BitVec.ofNat 16 (1 + p.length)) (p ++ [xorFold (s.cfg.kSetButtonLabels :: p)]) now)
        s = .next t ∧
      frameAccepted s s.cfg.kSetButtonLabels p now (entryDrops now s)
        (match labelSplit s.cfg p with
         | some labels => [.setButtonLabels labels]
         | none => []) t

/-- R188: REF_SPLIT cuts at every `0x00` and gives the first four pieces when there are at least four (three cuts),
otherwise `none`. REF_SPLIT is the spec's own decision D17. -/
def Obligations.RefSplitCutsAtZeroBytes : Prop :=
  (∀ s0 s1 s2 s3 rest : List Byte, (0 : Byte) ∉ s0 → (0 : Byte) ∉ s1 → (0 : Byte) ∉ s2 → (0 : Byte) ∉ s3 →
    (rest = [] ∨ rest.head? = some 0) →
    refSplit (s0 ++ [0] ++ s1 ++ [0] ++ s2 ++ [0] ++ s3 ++ rest) = some ⟨s0, s1, s2, s3⟩) ∧
  ∀ payload : List Byte, payload.count 0 < 3 → refSplit payload = none

/-- R186, R187 with R104, R105 and R170: a well-formed frame of an unknown kind, or of one of the two outbound kinds,
is accepted and keeps the session alive, and causes no action. That these frames refresh the session is the spec's own
decisions D11 and D18; the single `now` is log 11. -/
def Obligations.OtherFramesOnlyKeepTheSessionAlive : Prop :=
  ∀ (s : State) (p : List Byte) (kind : Byte) (now : Nat), s.cfg.Legal → s.inited = true → ready now s →
    p.length < s.cfg.maxBody → kind ∉ s.cfg.kinds →
    (∃ t, exec (.unknownKind (BitVec.ofNat 16 (1 + p.length)) kind (p ++ [xorFold (kind :: p)]) now) s = .next t ∧
      frameAccepted s kind p now (entryDrops now s) [] t) ∧
    (∃ t, exec (.buttonEvent (BitVec.ofNat 16 (1 + p.length)) (p ++ [xorFold (s.cfg.kButtonEvent :: p)]) now) s =
        .next t ∧
      frameAccepted s s.cfg.kButtonEvent p now (entryDrops now s) [] t) ∧
    (∃ t, exec (.heartbeat (BitVec.ofNat 16 (1 + p.length)) (p ++ [xorFold (s.cfg.kHeartbeat :: p)]) now) s =
        .next t ∧
      frameAccepted s s.cfg.kHeartbeat p now (entryDrops now s) [] t)

/-- R154 with R133: no permanent wedge. From any state with `inited = 1`, if the first byte of a well-formed frame
finds the parser waiting or comes after the idle timeout, and the other bytes follow without a gap of more than
`IDLE_TIMEOUT_MS`, each at its own time, the frame is accepted and dispatched. R154 and R133 are inferences of the
spec, on its decision D9. -/
def Obligations.AFreshFrameAfterSilenceIsDispatched : Prop :=
  ∀ (s : State) (kind : Byte) (p : List Byte) (t0 : Nat) (times : List Nat), s.cfg.Legal → s.inited = true →
    p.length < s.cfg.maxBody → times.length = p.length + 4 → ready t0 s → noGap s.cfg t0 times →
    ∃ t, exec (.pollCycle ((frameOf kind p).zip (t0 :: times)) none none none) s = .next t ∧
      frameAccepted s kind p ((t0 :: times).getLastD t0) (entryDrops t0 s) (actionOf s.cfg kind p) t

/-- R133, single-bit detection, with R149: a frame with one bit of one body byte (kind or payload) or of the checksum
byte flipped is dropped with BAD_CHECKSUM: no effect, and the session is as before. R133 is an inference of the spec;
the single `now` is log 11. -/
def Obligations.ASingleFlippedBitIsDetected : Prop :=
  ∀ (s : State) (kind : Byte) (p : List Byte) (now bit : Nat) (header : List Byte), s.cfg.Legal → s.inited = true →
    ready now s → p.length < s.cfg.maxBody → bit < 8 →
    header = [0xAA, BitVec.ofNat 8 ((1 + p.length) / 256), BitVec.ofNat 8 (1 + p.length)] →
    (∀ (j : Nat) (h : j < (kind :: p).length),
      ∃ t, exec (.rxs (header ++ (kind :: p).set j ((kind :: p)[j] ^^^ (1#8 <<< bit)) ++ [xorFold (kind :: p)]) now) s =
          .next t ∧
        t.drops = entryDrops now s ++ [.badChecksum] ∧ t.effects = [] ∧ t.phase = .waitStart ∧
        t.connected = s.connected ∧ t.tLastValid = s.tLastValid) ∧
    ∃ t, exec (.rxs (header ++ kind :: p ++ [xorFold (kind :: p) ^^^ (1#8 <<< bit)]) now) s = .next t ∧
      t.drops = entryDrops now s ++ [.badChecksum] ∧ t.effects = [] ∧ t.phase = .waitStart ∧
      t.connected = s.connected ∧ t.tLastValid = s.tLastValid

/-! ### Session -/

/-- R171: the silence check disconnects, with one notification, exactly when the session is connected and strictly
more than `SILENCE_MS` have passed since the last valid frame; it changes `connected` and nothing else (R174, R176).
The check as an operation of its own is the spec's own decision D12, modular time is D3 (log 21), and R174 is marked
D13 (log 22); R176 is an inference of the spec. -/
def Obligations.SilenceCheckDisconnectsAfterSilence : Prop :=
  ∀ (now : Nat) (s : State), s.inited = true →
    exec (.sessionCheck now) s = .next
      (if s.connected = true ∧ s.cfg.silenceMs < elapsed s.cfg now s.tLastValid then
        { s with effects := [.bridgeDisconnected], drops := [], result := none, connected := false }
      else { s with effects := [], drops := [], result := none })

/-- R172: the notification comes at most once in a step, and for every operation but `INIT` and the composite
`POLL_CYCLE` it comes exactly when the step changes `connected` from 1 to 0. R172 is an inference of the spec. -/
def Obligations.OneNotificationPerDisconnect : Prop :=
  ∀ (i : Instr) (s t : State), exec i s = .next t →
    t.effects.count .bridgeDisconnected ≤ 1 ∧
    ((∀ levels now, i ≠ .init levels now) → (∀ rx tick silence beat, i ≠ .pollCycle rx tick silence beat) →
      (.bridgeDisconnected ∈ t.effects ↔ s.connected = true ∧ t.connected = false))

/-- R170: nothing but a valid frame raises `connected`: an operation that does receives a byte which, in the state it
meets, is on time, finds the parser in `ReadChecksum` and equals the fold of the stored body. That a valid frame of
any kind does is the spec's own decision D11. -/
def Obligations.OnlyAValidFrameRaisesConnected : Prop :=
  ∀ (i : Instr) (s t : State), exec i s = .next t → s.connected = false → t.connected = true →
    ∃ pre b now post u body, receivedBytes s.cfg i = pre ++ (b, now) :: post ∧ rxAll pre s.beginStep = .next u ∧
      u.phase = .readChecksum ∧ isLate now u = false ∧ bufSlice u 0 u.bodyLen.toNat = .ok body ∧ b = xorFold body

/-- R227: a valid frame whose last byte is among the bytes drained in a poll cycle beats the silence deadline,
wherever the frame began and whatever bytes come before and after: if that byte and those after it are at most
`SILENCE_MS` old at the silence check, the check does not disconnect, and it sees the time of that byte or of the last
byte of a later valid frame, whatever the cycle samples and sends. The order of the cycle is the spec's own decision
D24; R227 is an inference of the spec. -/
def Obligations.AValidFrameBeatsTheSilenceDeadline : Prop :=
  ∀ (s u : State) (pre post : List (Byte × Nat)) (b kind : Byte) (payload : List Byte) (tv now : Nat)
    (tick : Option (BitVec 4 × Nat)) (beat : Option (Nat × Byte)), s.cfg.Legal → s.inited = true →
    rxAll pre s.beginStep = .next u → completesFrame b tv u (kind :: payload) →
    (∀ p ∈ (b, tv) :: post, elapsed s.cfg now p.2 ≤ s.cfg.silenceMs) →
    ∃ t, exec (.pollCycle (pre ++ (b, tv) :: post) tick (some now) beat) s = .next t ∧
      t.connected = true ∧ .bridgeDisconnected ∉ t.effects ∧
      ∃ mid b' tv' rest v body, (b, tv) :: post = mid ++ (b', tv') :: rest ∧ rxAll (pre ++ mid) s.beginStep = .next v ∧
        completesFrame b' tv' v body ∧ t.tLastValid = tv'

/-- R173: the query answers the value of `connected`, from every state, and changes no state. The place of the answer
is log 13; that the other outputs of the step before are cleared is log 15. -/
def Obligations.QueryAnswersConnected : Prop :=
  ∀ s : State,
    exec .bridgeConnected s = .next { s with effects := [], drops := [], result := some (.bit s.connected) }

/-! ### Outbound -/

/-- R189 with R102: the button event is one 7-byte frame; no register changes, connected or not, before `INIT` too.
The payload and that it is sent at any time are the spec's own decisions D13, D14 and D31. -/
def Obligations.ButtonEventIsSentAsOneFrame : Prop :=
  ∀ (index : Fin 4) (pressed : Bool) (s : State) (v frame : _), v = (if pressed then 0x01#8 else 0x00#8) →
    frame = [0xAA#8, 0x00, 0x03, s.cfg.kButtonEvent, BitVec.ofNat 8 index.val, v,
      s.cfg.kButtonEvent ^^^ BitVec.ofNat 8 index.val ^^^ v] →
    exec (.sendButtonEvent index pressed) s = .next
      { s with effects := [.tx frame], drops := [], result := none, tx := s.tx ++ frame }

/-- R190 with R103: the heartbeat is one 6-byte frame; no register changes, `t_last_hb` included. That it is sent at
any time and leaves the timer is the spec's own decisions D13 and D31. -/
def Obligations.HeartbeatIsSentAsOneFrame : Prop :=
  ∀ (status : Byte) (s : State) (frame : _),
    frame = [0xAA#8, 0x00, 0x02, s.cfg.kHeartbeat, status, s.cfg.kHeartbeat ^^^ status] →
    exec (.sendHeartbeat status) s = .next
      { s with effects := [.tx frame], drops := [], result := none, tx := s.tx ++ frame }

/-- R191: at `HEARTBEAT_MS` or more since the last one the check sends one heartbeat and restarts the timer from
`now`; earlier it does nothing. The comparison and the restart are the spec's own decision D13. -/
def Obligations.HeartbeatCheckSendsWhenDue : Prop :=
  ∀ (now : Nat) (status : Byte) (s : State) (frame : _), s.inited = true →
    frame = [0xAA#8, 0x00, 0x02, s.cfg.kHeartbeat, status, s.cfg.kHeartbeat ^^^ status] →
    exec (.heartbeatCheck now status) s = .next
      (if s.cfg.heartbeatMs ≤ elapsed s.cfg now s.tLastHb then
        { s with
          effects := [.tx frame], drops := [], result := none, tx := s.tx ++ frame, tLastHb := now }
      else { s with effects := [], drops := [], result := none })

/-- R63 with R72: every operation appends to the TX stream exactly the bytes of its `Tx` effects, in order and
unbroken. That the transport takes every byte is the spec's own decision D23 (log 20). -/
def Obligations.TxStreamIsTheBytesOfTheEffects : Prop :=
  ∀ (i : Instr) (s t : State), exec i s = .next t → t.tx = s.tx ++ t.effects.flatMap Effect.txBytes

/-! ### Debounce -/

/-- R202, R203, R204: one tick steps each of the four lines by the rule of `LINE_STEP`, in both quiet modes, and sends
one button event per reporting line in ascending order; nothing else changes. The quiet modes and the order of the
lines are the spec's own decisions D19 and D22. -/
def Obligations.SampleTickStepsTheFourLines : Prop :=
  ∀ (levels : BitVec 4) (now : Nat) (s : State), s.inited = true →
    ∃ t, exec (.sampleTick levels now) s = .next t ∧
      (∀ (i : Fin 4) (L : ButtonLine) (v : Bool), L = s.lines.get i → v = xor levels[i.val] L.activeLow →
        (frozenAt s.cfg now L → t.lines.get i = L ∧ ∀ x, buttonTx s.cfg i x ∉ t.effects) ∧
        (¬frozenAt s.cfg now L →
          (edgeAt s.cfg now L v (countAfter s.cfg L v) →
            t.lines.get i = { L with cand := v, cnt := countAfter s.cfg L v, reported := v, tRep := now } ∧
              t.effects.count (buttonTx s.cfg i v) = 1) ∧
          (¬edgeAt s.cfg now L v (countAfter s.cfg L v) →
            t.lines.get i = { L with cand := v, cnt := countAfter s.cfg L v } ∧
              ∀ x, buttonTx s.cfg i x ∉ t.effects))) ∧
      (∃ sent : List (Fin 4 × Bool), sent.Pairwise (fun a b => a.1 < b.1) ∧
        t.effects = sent.map fun e => buttonTx s.cfg e.1 e.2) ∧
      t = { s with
        effects := t.effects, drops := [], result := none, lines := t.lines,
        tx := s.tx ++ t.effects.flatMap Effect.txBytes }

/-- R34, R200: a line's step reads and writes that line only: two states that agree on line `i`, with the same level
on it, agree on it after the tick, whatever the other lines hold. -/
def Obligations.LinesAreIndependent : Prop :=
  ∀ (levels levels' : BitVec 4) (now : Nat) (s s' t t' : State) (i : Fin 4), s.cfg = s'.cfg →
    s.lines.get i = s'.lines.get i → levels[i.val] = levels'[i.val] →
    exec (.sampleTick levels now) s = .next t → exec (.sampleTick levels' now) s' = .next t' →
    t.lines.get i = t'.lines.get i ∧ ∀ x, (buttonTx s.cfg i x ∈ t.effects ↔ buttonTx s.cfg i x ∈ t'.effects)

/-- R37, R39 with R206: over every operation but `INIT`, a line's reported state changes only in a tick (of its own or
of a poll cycle) and only together with its event, which carries the new state; the time of the report is then the
tick's, and at least `QUIET_MS` have passed since the last one. The exception of `INIT` is R201's; R206 is an
inference of the spec. -/
def Obligations.ReportedStateChangesOnlyWithItsEvent : Prop :=
  ∀ (i : Instr) (s t : State) (k : Fin 4), exec i s = .next t → (∀ levels now, i ≠ .init levels now) →
    (t.lines.get k).reported ≠ (s.lines.get k).reported →
    ∃ levels now, (i = .sampleTick levels now ∨ ∃ rx silence beat, i = .pollCycle rx (some (levels, now)) silence beat) ∧
      buttonTx s.cfg k (t.lines.get k).reported ∈ t.effects ∧ (t.lines.get k).tRep = now ∧
      s.cfg.quietMs ≤ elapsed s.cfg now (s.lines.get k).tRep

/-- R35 with R201: a line is active-low if its level is high at `INIT`, active-high if it is low, and no operation but
`INIT` changes that. That a level of 1 is logical-high is the spec's own decision D27 (log 22). -/
def Obligations.PolarityIsFixedUntilInit : Prop :=
  (∀ (levels : BitVec 4) (now : Nat) (s : State) (k : Fin 4),
    ∃ t, exec (.init levels now) s = .next t ∧ (t.lines.get k).activeLow = levels[k.val]) ∧
  ∀ (i : Instr) (s t : State) (k : Fin 4), exec i s = .next t → (∀ levels now, i ≠ .init levels now) →
    (t.lines.get k).activeLow = (s.lines.get k).activeLow

/-- R205: the match counter saturates: after a tick it is between 1 and `2^CNT_W - 1`; a sample equal to the candidate
never lowers it, and leaves it at `2^CNT_W - 1` if it stands there, so it never wraps. R205 is an inference of the
spec. -/
def Obligations.MatchCounterSaturates : Prop :=
  ∀ (levels : BitVec 4) (now : Nat) (s t : State) (k : Fin 4), s.cfg.Legal →
    1 ≤ (s.lines.get k).cnt ∧ (s.lines.get k).cnt ≤ 2 ^ s.cfg.cntW - 1 →
    exec (.sampleTick levels now) s = .next t →
    (1 ≤ (t.lines.get k).cnt ∧ (t.lines.get k).cnt ≤ 2 ^ s.cfg.cntW - 1) ∧
    (xor levels[k.val] (s.lines.get k).activeLow = (s.lines.get k).cand →
      (s.lines.get k).cnt ≤ (t.lines.get k).cnt ∧
        ((s.lines.get k).cnt = 2 ^ s.cfg.cntW - 1 → (t.lines.get k).cnt = 2 ^ s.cfg.cntW - 1))

/-- R207, the clean press: a line that reads released and is reported released, whose quiet period is over, and that
then reads pressed on every tick, sends exactly one press event, on the `MATCH_THRESH`-th tick, and no release event,
in both quiet modes and whatever the other lines do. R207 is an inference of the spec, on its decision D19. -/
def Obligations.ACleanPressIsReportedOnce : Prop :=
  ∀ (ticks : List (BitVec 4 × Nat)) (s : State) (k : Fin 4), s.cfg.Legal → s.inited = true →
    (s.lines.get k).cand = false → (s.lines.get k).reported = false →
    (∀ p ∈ ticks, xor p.1[k.val] (s.lines.get k).activeLow = true ∧
      s.cfg.quietMs ≤ elapsed s.cfg p.2 (s.lines.get k).tRep) →
    ∃ t, runOps (ticks.map fun p => .sampleTick p.1 p.2) s = .next t ∧
      t.effects.count (buttonTx s.cfg k true) = (if s.cfg.matchThresh ≤ ticks.length then 1 else 0) ∧
      t.effects.count (buttonTx s.cfg k false) = 0

/-- R38: the width of the counter is not observable: of two blocks that differ only in `CNT_W`, both wide enough for
`MATCH_THRESH`, and in how far their counts are above it, every operation and every step answers alike: the same stop,
or next states with the same effects that again differ in nothing else. The open width is the spec's own decision D21;
R38's conclusion is an inference of the spec. -/
def Obligations.CounterWidthIsNotObservable : Prop :=
  ∀ s s' : State, sameButForCounts s s' →
    (∀ i : Instr, sameOutcome (exec i s) (exec i s')) ∧ sameOutcome (step s) (step s')

/-! ### The whole machine -/

/-- A step takes the next input, decodes it and runs it in the state without it; with no input it is `NOP` (log 8, log
9). The list of inputs and the idle port are the model's choices. -/
def Obligations.AStepRunsTheDecodedInput : Prop :=
  (∀ (s : State) (inp : Input) (rest : List Input), s.pending = inp :: rest →
    step s = exec (decode s.cfg inp) { s with pending := rest }) ∧
  ∀ s : State, s.pending = [] → step s = exec .nop s

/-- R40: the configuration is a parameter: no operation changes it, nor the inputs still to come. That the parameter
stands in State is the model's choice, log 1. -/
def Obligations.NoOperationChangesTheParameter : Prop :=
  ∀ (i : Instr) (s t : State), exec i s = .next t → t.cfg = s.cfg ∧ t.pending = s.pending

/-- R241: no rule reads the drop output, and none reads the other outputs of the step before: the next state is the
same whatever they held. That the last outputs stand in State is the model's choice, log 15 and log 16. -/
def Obligations.OutputsAreNeverRead : Prop :=
  ∀ (i : Instr) (s : State) (es : List Effect) (ds : List Drop) (r : Option Result),
    exec i { s with effects := es, drops := ds, result := r } = exec i s

/-- The invariant holds at power-on reset. The reset values it rests on where the spec gives none are the model's
choices, log 2 and log 5. -/
def Obligations.ResetMeetsTheInvariant : Prop := State.reset.Inv

/-- R29 with R24, R33, R38, R61: every step keeps the invariant, from every state that meets it. The form of the
invariant is the model's; R29 is an inference of the spec. -/
def Obligations.EveryStepKeepsTheInvariant : Prop :=
  ∀ s t : State, s.Inv → step s = .next t → t.Inv

/-- R243: from a state that meets the invariant no step faults, and it is refused only before the first `INIT`, or
where the next input is an `ENCODE` of more than 65534 payload bytes. The named stops are the model's, log 6, log 7,
log 10 and log 14. -/
def Obligations.NoStepFaultsUnderTheInvariant : Prop :=
  ∀ s : State, s.Inv →
    (∃ t, step s = .next t) ∨ (step s = .refused .notInitialised ∧ s.inited = false) ∨
      ∃ inp rest kind payload, s.pending = inp :: rest ∧ decode s.cfg inp = .encode kind payload ∧
        65534 < payload.length ∧ step s = .refused .encodeDomain

/-! ### Encoding -/

/-- Decode and encode agree on every well-formed instruction, for every legal configuration. The tails and the burst
form are the model's choices, log 11 and log 12. -/
def Obligations.DecodingInvertsEncoding : Prop :=
  ∀ (c : Cfg) (i : Instr), c.Legal → i.wellFormed c = true → decode c (encode c i) = i

/-- R110: each of the eight `op` codes is an operation, with the operands of the ports the table names, the time in
`TIME_W` bits (R43); and every sample of the port is the encoding of that operation, up to the operand ports it does
not read. The codes are the spec's own decision D2. -/
def Obligations.EveryOpCodeIsDefined : Prop :=
  (∀ (c : Cfg) (p : PortSample),
    decode c (.port { p with op := 0 }) = .nop ∧
    decode c (.port { p with op := 1 }) = .rxByte p.rxByte (p.now % 2 ^ c.timeW) ∧
    decode c (.port { p with op := 2 }) = .sampleTick p.levels (p.now % 2 ^ c.timeW) ∧
    decode c (.port { p with op := 3 }) = .sessionCheck (p.now % 2 ^ c.timeW) ∧
    decode c (.port { p with op := 4 }) = .heartbeatCheck (p.now % 2 ^ c.timeW) p.hbStatus ∧
    decode c (.port { p with op := 5 }) = .sendButtonEvent p.btnIndex.toFin p.btnPressed ∧
    decode c (.port { p with op := 6 }) = .sendHeartbeat p.hbStatus ∧
    decode c (.port { p with op := 7 }) = .init p.levels (p.now % 2 ^ c.timeW)) ∧
  ∀ (c : Cfg) (p : PortSample), ∃ q, encode c (decode c (.port p)) = .port q ∧ q.op = p.op ∧
    decode c (.port q) = decode c (.port p)

/-- A few words of the table, written out from R91 and R110. The numbering and the kinds of REF are the model's
choices, log 2 and log 17. -/
def Obligations.TableWordsDecode : Prop :=
  decodeTableWord 8 0b00000001 = some (.rxByte 0x00 0) ∧
  decodeTableWord 8 0b00000111 = some (.init 0b0000 0) ∧
  decodeTableWord 32 0b10101010_00000000_00000001_00000001 = some (.displayText 1 [0x00] 0) ∧
  decodeTableWord 32 0b10101010_00000000_00000010_00010000 = some (.buttonEvent 2 [0x00, 0x00] 0) ∧
  decodeTableWord 32 0b00101010_00000000_00000001_00000001 = none
end

