-- ==== Sys2Proof/Laws/State.lean ====
section
/-! SUPPORT. One lemma per field per update of the state record, so that no later proof unfolds an update. -/

namespace Sys2Proof.Laws

open Sys2Proof.Machine

/-! ### The start of a step -/

@[simp] theorem beginStep_cfg (s : State) : (s.beginStep).cfg = s.cfg := rfl
@[simp] theorem beginStep_inited (s : State) : (s.beginStep).inited = s.inited := rfl
@[simp] theorem beginStep_phase (s : State) : (s.beginStep).phase = s.phase := rfl
@[simp] theorem beginStep_bodyLen (s : State) : (s.beginStep).bodyLen = s.bodyLen := rfl
@[simp] theorem beginStep_cursor (s : State) : (s.beginStep).cursor = s.cursor := rfl
@[simp] theorem beginStep_buf (s : State) : (s.beginStep).buf = s.buf := rfl
@[simp] theorem beginStep_tLastByte (s : State) : (s.beginStep).tLastByte = s.tLastByte := rfl
@[simp] theorem beginStep_tLastValid (s : State) : (s.beginStep).tLastValid = s.tLastValid := rfl
@[simp] theorem beginStep_connected (s : State) : (s.beginStep).connected = s.connected := rfl
@[simp] theorem beginStep_tLastHb (s : State) : (s.beginStep).tLastHb = s.tLastHb := rfl
@[simp] theorem beginStep_lines (s : State) : (s.beginStep).lines = s.lines := rfl
@[simp] theorem beginStep_tx (s : State) : (s.beginStep).tx = s.tx := rfl
@[simp] theorem beginStep_effects (s : State) : (s.beginStep).effects = [] := rfl
@[simp] theorem beginStep_drops (s : State) : (s.beginStep).drops = [] := rfl
@[simp] theorem beginStep_result (s : State) : (s.beginStep).result = none := rfl
@[simp] theorem beginStep_pending (s : State) : (s.beginStep).pending = s.pending := rfl

/-! ### An effect -/

@[simp] theorem emit_cfg (s : State) (e : Effect) : (s.emit e).cfg = s.cfg := rfl
@[simp] theorem emit_inited (s : State) (e : Effect) : (s.emit e).inited = s.inited := rfl
@[simp] theorem emit_phase (s : State) (e : Effect) : (s.emit e).phase = s.phase := rfl
@[simp] theorem emit_bodyLen (s : State) (e : Effect) : (s.emit e).bodyLen = s.bodyLen := rfl
@[simp] theorem emit_cursor (s : State) (e : Effect) : (s.emit e).cursor = s.cursor := rfl
@[simp] theorem emit_buf (s : State) (e : Effect) : (s.emit e).buf = s.buf := rfl
@[simp] theorem emit_tLastByte (s : State) (e : Effect) : (s.emit e).tLastByte = s.tLastByte := rfl
@[simp] theorem emit_tLastValid (s : State) (e : Effect) : (s.emit e).tLastValid = s.tLastValid := rfl
@[simp] theorem emit_connected (s : State) (e : Effect) : (s.emit e).connected = s.connected := rfl
@[simp] theorem emit_tLastHb (s : State) (e : Effect) : (s.emit e).tLastHb = s.tLastHb := rfl
@[simp] theorem emit_lines (s : State) (e : Effect) : (s.emit e).lines = s.lines := rfl
@[simp] theorem emit_tx (s : State) (e : Effect) : (s.emit e).tx = s.tx ++ e.txBytes := rfl
@[simp] theorem emit_effects (s : State) (e : Effect) : (s.emit e).effects = s.effects ++ [e] := rfl
@[simp] theorem emit_drops (s : State) (e : Effect) : (s.emit e).drops = s.drops := rfl
@[simp] theorem emit_result (s : State) (e : Effect) : (s.emit e).result = s.result := rfl
@[simp] theorem emit_pending (s : State) (e : Effect) : (s.emit e).pending = s.pending := rfl

/-! ### An answer -/

@[simp] theorem answer_cfg (s : State) (r : Result) : (s.answer r).cfg = s.cfg := rfl
@[simp] theorem answer_inited (s : State) (r : Result) : (s.answer r).inited = s.inited := rfl
@[simp] theorem answer_phase (s : State) (r : Result) : (s.answer r).phase = s.phase := rfl
@[simp] theorem answer_bodyLen (s : State) (r : Result) : (s.answer r).bodyLen = s.bodyLen := rfl
@[simp] theorem answer_cursor (s : State) (r : Result) : (s.answer r).cursor = s.cursor := rfl
@[simp] theorem answer_buf (s : State) (r : Result) : (s.answer r).buf = s.buf := rfl
@[simp] theorem answer_tLastByte (s : State) (r : Result) : (s.answer r).tLastByte = s.tLastByte := rfl
@[simp] theorem answer_tLastValid (s : State) (r : Result) : (s.answer r).tLastValid = s.tLastValid := rfl
@[simp] theorem answer_connected (s : State) (r : Result) : (s.answer r).connected = s.connected := rfl
@[simp] theorem answer_tLastHb (s : State) (r : Result) : (s.answer r).tLastHb = s.tLastHb := rfl
@[simp] theorem answer_lines (s : State) (r : Result) : (s.answer r).lines = s.lines := rfl
@[simp] theorem answer_tx (s : State) (r : Result) : (s.answer r).tx = s.tx := rfl
@[simp] theorem answer_effects (s : State) (r : Result) : (s.answer r).effects = s.effects := rfl
@[simp] theorem answer_drops (s : State) (r : Result) : (s.answer r).drops = s.drops := rfl
@[simp] theorem answer_result (s : State) (r : Result) : (s.answer r).result = some r := rfl
@[simp] theorem answer_pending (s : State) (r : Result) : (s.answer r).pending = s.pending := rfl

/-! ### Drop entry -/

@[simp] theorem takeDrop_cfg (d : Drop) (s : State) : (takeDrop d s).cfg = s.cfg := rfl
@[simp] theorem takeDrop_inited (d : Drop) (s : State) : (takeDrop d s).inited = s.inited := rfl
@[simp] theorem takeDrop_phase (d : Drop) (s : State) : (takeDrop d s).phase = .waitStart := rfl
@[simp] theorem takeDrop_bodyLen (d : Drop) (s : State) : (takeDrop d s).bodyLen = s.bodyLen := rfl
@[simp] theorem takeDrop_cursor (d : Drop) (s : State) : (takeDrop d s).cursor = s.cursor := rfl
@[simp] theorem takeDrop_buf (d : Drop) (s : State) : (takeDrop d s).buf = s.buf := rfl
@[simp] theorem takeDrop_tLastByte (d : Drop) (s : State) : (takeDrop d s).tLastByte = s.tLastByte := rfl
@[simp] theorem takeDrop_tLastValid (d : Drop) (s : State) : (takeDrop d s).tLastValid = s.tLastValid := rfl
@[simp] theorem takeDrop_connected (d : Drop) (s : State) : (takeDrop d s).connected = s.connected := rfl
@[simp] theorem takeDrop_tLastHb (d : Drop) (s : State) : (takeDrop d s).tLastHb = s.tLastHb := rfl
@[simp] theorem takeDrop_lines (d : Drop) (s : State) : (takeDrop d s).lines = s.lines := rfl
@[simp] theorem takeDrop_tx (d : Drop) (s : State) : (takeDrop d s).tx = s.tx := rfl
@[simp] theorem takeDrop_effects (d : Drop) (s : State) : (takeDrop d s).effects = s.effects := rfl
@[simp] theorem takeDrop_drops (d : Drop) (s : State) : (takeDrop d s).drops = s.drops ++ [d] := rfl
@[simp] theorem takeDrop_result (d : Drop) (s : State) : (takeDrop d s).result = s.result := rfl
@[simp] theorem takeDrop_pending (d : Drop) (s : State) : (takeDrop d s).pending = s.pending := rfl

/-! ### The liveness update -/

@[simp] theorem markAlive_cfg (now : Nat) (s : State) : (markAlive now s).cfg = s.cfg := rfl
@[simp] theorem markAlive_inited (now : Nat) (s : State) : (markAlive now s).inited = s.inited := rfl
@[simp] theorem markAlive_phase (now : Nat) (s : State) : (markAlive now s).phase = s.phase := rfl
@[simp] theorem markAlive_bodyLen (now : Nat) (s : State) : (markAlive now s).bodyLen = s.bodyLen := rfl
@[simp] theorem markAlive_cursor (now : Nat) (s : State) : (markAlive now s).cursor = s.cursor := rfl
@[simp] theorem markAlive_buf (now : Nat) (s : State) : (markAlive now s).buf = s.buf := rfl
@[simp] theorem markAlive_tLastByte (now : Nat) (s : State) : (markAlive now s).tLastByte = s.tLastByte := rfl
@[simp] theorem markAlive_tLastValid (now : Nat) (s : State) : (markAlive now s).tLastValid = now := rfl
@[simp] theorem markAlive_connected (now : Nat) (s : State) : (markAlive now s).connected = true := rfl
@[simp] theorem markAlive_tLastHb (now : Nat) (s : State) : (markAlive now s).tLastHb = s.tLastHb := rfl
@[simp] theorem markAlive_lines (now : Nat) (s : State) : (markAlive now s).lines = s.lines := rfl
@[simp] theorem markAlive_tx (now : Nat) (s : State) : (markAlive now s).tx = s.tx := rfl
@[simp] theorem markAlive_effects (now : Nat) (s : State) : (markAlive now s).effects = s.effects := rfl
@[simp] theorem markAlive_drops (now : Nat) (s : State) : (markAlive now s).drops = s.drops := rfl
@[simp] theorem markAlive_result (now : Nat) (s : State) : (markAlive now s).result = s.result := rfl
@[simp] theorem markAlive_pending (now : Nat) (s : State) : (markAlive now s).pending = s.pending := rfl

/-! ### The line file -/

@[simp] theorem lines_get_set_same (ls : Lines) (i : Fin 4) (L : ButtonLine) : (ls.set i L).get i = L := by
  match i with
  | 0 | 1 | 2 | 3 => rfl

theorem lines_get_set_other (ls : Lines) (i j : Fin 4) (L : ButtonLine) (h : i ≠ j) :
    (ls.set i L).get j = ls.get j := by
  match i, j with
  | 0, 0 | 1, 1 | 2, 2 | 3, 3 => exact absurd rfl h
  | 0, 1 | 0, 2 | 0, 3 | 1, 0 | 1, 2 | 1, 3 | 2, 0 | 2, 1 | 2, 3 | 3, 0 | 3, 1 | 3, 2 => rfl

/-- Two line files are equal when they agree on every line. -/
theorem lines_ext (ls ms : Lines) (h : ∀ i, ls.get i = ms.get i) : ls = ms := by
  cases ls
  cases ms
  simp only [Lines.mk.injEq]
  exact ⟨h 0, h 1, h 2, h 3⟩

end Sys2Proof.Laws
end

