-- ==== Sys2Proof/Laws/Arith.lean ====
section
/-! SUPPORT. The laws of the length field and of the modular time difference. -/

namespace Sys2Proof.Laws

open Sys2Proof.Machine

theorem lenOf_toNat (hi lo : Byte) : (lenOf hi lo).toNat = hi.toNat * 256 + lo.toNat := by
  have h1 := hi.isLt
  have h2 := lo.isLt
  simp only [lenOf, BitVec.toNat_ofNat]
  omega

@[simp] theorem lenHi_lenOf (hi lo : Byte) : lenHi (lenOf hi lo) = hi := by
  have h2 := lo.isLt
  apply BitVec.eq_of_toNat_eq
  simp only [lenHi, lenOf_toNat, BitVec.toNat_ofNat]
  have h1 := hi.isLt
  omega

@[simp] theorem lenLo_lenOf (hi lo : Byte) : lenLo (lenOf hi lo) = lo := by
  have h2 := lo.isLt
  apply BitVec.eq_of_toNat_eq
  simp only [lenLo, lenOf_toNat, BitVec.toNat_ofNat]
  omega

@[simp] theorem lenOf_lenHi_lenLo (len : BitVec 16) : lenOf (lenHi len) (lenLo len) = len := by
  have h := len.isLt
  apply BitVec.eq_of_toNat_eq
  simp only [lenOf_toNat, lenHi, lenLo, BitVec.toNat_ofNat]
  omega

/-- The time difference fits the `TIME_W` bits of the port. -/
theorem elapsed_lt (c : Cfg) (now t : Nat) : elapsed c now t < 2 ^ c.timeW := Nat.mod_lt _ (Nat.two_pow_pos _)

/-- No time has passed between two events at one `now`. -/
@[simp] theorem elapsed_self (c : Cfg) (t : Nat) : elapsed c t t = 0 := by
  have hpos : 0 < 2 ^ c.timeW := Nat.two_pow_pos _
  have hlt := Nat.mod_lt t hpos
  have hdiv := Nat.mod_add_div t (2 ^ c.timeW)
  have key : ∀ q r m : Nat, r + q = t → r < m → t + (m - r) = q + m := fun q r m hq hr => by omega
  unfold elapsed
  rw [key _ _ _ hdiv hlt, Nat.add_mod_right]
  exact Nat.mul_mod_right _ _

/-! The four interval tests as comparisons (60_exceptions.md R264). -/

theorem idleExpired_iff (c : Cfg) (now t : Nat) : idleExpired c now t = true ↔ c.idleTimeoutMs < elapsed c now t := by
  simp [idleExpired]

theorem silenceExpired_iff (c : Cfg) (now t : Nat) : silenceExpired c now t = true ↔ c.silenceMs < elapsed c now t := by
  simp [silenceExpired]

theorem heartbeatDue_iff (c : Cfg) (now t : Nat) : heartbeatDue c now t = true ↔ c.heartbeatMs ≤ elapsed c now t := by
  simp [heartbeatDue]

theorem inQuiet_iff (c : Cfg) (now t : Nat) : inQuiet c now t = true ↔ elapsed c now t < c.quietMs := by
  simp [inQuiet]

/-- A byte that arrives with the one before it is never late. -/
@[simp] theorem idleExpired_self (c : Cfg) (t : Nat) : idleExpired c t t = false := by simp [idleExpired]

/-- A saturated count stays within `CNT_W` bits. -/
theorem satInc_le (c : Cfg) (n : Nat) : satInc c n ≤ 2 ^ c.cntW - 1 := Nat.min_le_right _ _

end Sys2Proof.Laws
end

