-- ==== Sys2Proof/Laws/Codec.lean ====
section
/-! SUPPORT. The laws of the XOR fold and of the cut at zero bytes. -/

namespace Sys2Proof.Laws

open Sys2Proof.Machine

/-! ### The fold -/

theorem foldl_xor (bs : List Byte) (c : Byte) : bs.foldl (fun c b => c ^^^ b) c = c ^^^ xorFold bs := by
  induction bs generalizing c with
  | nil => simp [xorFold]
  | cons b rest ih =>
    rw [List.foldl_cons, ih, show xorFold (b :: rest) = List.foldl (fun c b => c ^^^ b) (0 ^^^ b) rest from rfl, ih]
    simp [BitVec.xor_assoc]

/-- The fold of a string is its first byte folded with the rest. -/
theorem xorFold_cons (b : Byte) (bs : List Byte) : xorFold (b :: bs) = b ^^^ xorFold bs := by
  rw [show xorFold (b :: bs) = List.foldl (fun c b => c ^^^ b) (0 ^^^ b) bs from rfl, foldl_xor]
  simp

/-! ### The cut -/

theorem cutAtZero_ne_nil (p : List Byte) : cutAtZero p ≠ [] := by
  cases p with
  | nil => simp [cutAtZero]
  | cons b rest =>
    unfold cutAtZero
    split
    · simp
    · split <;> simp

/-- There is one more piece than there are `0x00` bytes. -/
theorem cutAtZero_length (p : List Byte) : (cutAtZero p).length = p.count 0 + 1 := by
  induction p with
  | nil => rfl
  | cons b rest ih =>
    unfold cutAtZero
    split
    · rename_i h
      subst h
      simp [ih]
    · rename_i h
      cases hr : cutAtZero rest with
      | nil => exact absurd hr (cutAtZero_ne_nil rest)
      | cons q qs =>
        rw [hr] at ih
        rw [List.count_cons_of_ne h, ← ih]
        rfl

/-- Bytes that are not `0x00` stay in the piece they begin. -/
theorem cutAtZero_append (a p : List Byte) (h : (0 : Byte) ∉ a) :
    ∃ q qs, cutAtZero p = q :: qs ∧ cutAtZero (a ++ p) = (a ++ q) :: qs := by
  induction a with
  | nil =>
    cases h : cutAtZero p with
    | nil => exact absurd h (cutAtZero_ne_nil p)
    | cons q qs => exact ⟨q, qs, rfl, h⟩
  | cons b rest ih =>
    obtain ⟨q, qs, h1, h2⟩ := ih fun h' => h (List.mem_cons_of_mem _ h')
    have hb : b ≠ 0 := fun e => h (e ▸ List.mem_cons_self)
    exact ⟨q, qs, h1, by rw [List.cons_append, cutAtZero, if_neg hb, h2]; rfl⟩

end Sys2Proof.Laws
end

