-- ==== Sys2Proof/Laws/Memory.lean ====
section
/-! SUPPORT. The laws of BUF: a read after a write, and that a write keeps the canonical form. -/

namespace Sys2Proof.Laws

open Sys2Proof.Machine

@[simp] theorem read_write_same (m : Memory) (a : Nat) (v : Byte) : (m.write a v).read a = some v := by
  induction m with
  | nil => simp [Memory.write, Memory.read]
  | cons p rest ih =>
    obtain ⟨k, w⟩ := p
    by_cases hlt : a < k
    · simp [Memory.write, Memory.read, hlt]
    · by_cases heq : a = k
      · simp [Memory.write, Memory.read, heq]
      · have hk : k ≠ a := fun h => heq h.symm
        simp [Memory.write, Memory.read, hlt, heq, hk, ih]

theorem read_write_other (m : Memory) (a b : Nat) (v : Byte) (h : b ≠ a) : (m.write a v).read b = m.read b := by
  have hab : a ≠ b := fun e => h e.symm
  induction m with
  | nil => simp [Memory.write, Memory.read, hab]
  | cons p rest ih =>
    obtain ⟨k, w⟩ := p
    by_cases hlt : a < k
    · simp [Memory.write, Memory.read, hlt, hab]
    · by_cases heq : a = k
      · subst heq
        simp [Memory.write, Memory.read, hab]
      · simp [Memory.write, Memory.read, hlt, heq, ih]

/-- Every entry of a memory after a write is the one written or one of before. -/
theorem mem_write {m : Memory} {a : Nat} {v : Byte} {p : Nat × Byte} (h : p ∈ m.write a v) : p = (a, v) ∨ p ∈ m := by
  induction m with
  | nil => simpa [Memory.write] using h
  | cons q rest ih =>
    obtain ⟨k, w⟩ := q
    by_cases hlt : a < k
    · simpa [Memory.write, hlt] using h
    · by_cases heq : a = k
      · subst heq
        simp only [Memory.write, lt_irrefl, if_false, if_true, List.mem_cons] at h
        rcases h with h | h
        · exact .inl h
        · exact .inr (List.mem_cons_of_mem _ h)
      · simp only [Memory.write, hlt, heq, if_false, List.mem_cons] at h
        rcases h with h | h
        · exact .inr (h ▸ List.mem_cons_self)
        · rcases ih h with h | h
          · exact .inl h
          · exact .inr (List.mem_cons_of_mem _ h)

/-- A write keeps the canonical form. -/
theorem write_wf (m : Memory) (a : Nat) (v : Byte) (h : m.wf) : (m.write a v).wf := by
  induction m with
  | nil => simp [Memory.write, Memory.wf]
  | cons q rest ih =>
    obtain ⟨k, w⟩ := q
    have hhead : ∀ p ∈ rest, k < p.1 := (List.pairwise_cons.1 h).1
    have htail : Memory.wf rest := (List.pairwise_cons.1 h).2
    by_cases hlt : a < k
    · simp only [Memory.write, hlt, if_true]
      refine List.pairwise_cons.2 ⟨fun p hp => ?_, h⟩
      rcases List.mem_cons.1 hp with hp | hp
      · exact hp ▸ hlt
      · exact lt_trans hlt (hhead p hp)
    · by_cases heq : a = k
      · subst heq
        simp only [Memory.write, lt_irrefl, if_false, if_true]
        exact List.pairwise_cons.2 ⟨hhead, htail⟩
      · simp only [Memory.write, hlt, heq, if_false]
        refine List.pairwise_cons.2 ⟨fun p hp => ?_, ih htail⟩
        rcases mem_write hp with hp | hp
        · subst hp
          show k < a
          omega
        · exact hhead p hp

/-- The one operation that stores to BUF keeps its canonical form. -/
theorem bufWrite_wf {s t : State} {a : Nat} {v : Byte} (h : bufWrite s a v = .next t) (hw : s.buf.wf) : t.buf.wf := by
  unfold bufWrite at h
  split at h
  · cases h
  · cases h
    exact write_wf _ _ _ hw

/-- BUF is in canonical form at power-on reset. -/
theorem reset_buf_wf : State.reset.buf.wf := List.Pairwise.nil

/-- An address that is not listed holds no value. -/
theorem read_none_of_not_listed (m : Memory) (a : Nat) (h : ∀ p ∈ m, p.1 ≠ a) : m.read a = none := by
  induction m with
  | nil => rfl
  | cons q rest ih =>
    obtain ⟨k, w⟩ := q
    have hk : k ≠ a := h (k, w) List.mem_cons_self
    simp only [Memory.read, hk, if_false]
    exact ih fun p hp => h p (List.mem_cons_of_mem _ hp)

/-! ### Reads of BUF as a block -/

/-- A read below `MAX_BODY` of a byte that holds a value answers it. -/
theorem bufRead_ok {s : State} {a : Nat} {v : Byte} (ha : a < s.cfg.maxBody) (h : s.buf.read a = some v) :
    bufRead s a = .ok v := by
  simp [bufRead, h, Nat.not_le.2 ha]

/-- A read of a byte without a value faults. -/
theorem bufRead_noValue {s : State} {a : Nat} (ha : a < s.cfg.maxBody) (h : s.buf.read a = none) :
    bufRead s a = .error (.bufNoValue a) := by
  simp [bufRead, h, Nat.not_le.2 ha]

/-- A block of bytes that all hold a value reads as those bytes. -/
theorem bufBytes_ok (s : State) (body : List Byte) (a : Nat) (hmax : a + body.length ≤ s.cfg.maxBody)
    (h : ∀ j (hj : j < body.length), s.buf.read (a + j) = some body[j]) : bufBytes s a body.length = .ok body := by
  induction body generalizing a with
  | nil => rfl
  | cons v vs ih =>
    have h0 : bufRead s a = .ok v := by
      refine bufRead_ok ?_ ?_
      · simp only [List.length_cons] at hmax
        omega
      · exact h 0 (Nat.succ_pos _)
    have htail : bufBytes s (a + 1) vs.length = .ok vs := by
      refine ih (a + 1) ?_ fun j hj => ?_
      · simp only [List.length_cons] at hmax
        omega
      · have := h (j + 1) (by simpa using hj)
        simpa [Nat.add_assoc, Nat.add_comm 1 j] using this
    simp [bufBytes, h0, htail]

/-- A block that was read has the length asked for, lies below `MAX_BODY`, and each of its bytes is the byte at its
address. -/
theorem bufBytes_spec {s : State} {a n : Nat} {body : List Byte} (h : bufBytes s a n = .ok body) :
    body.length = n ∧ ∀ j (hj : j < body.length), a + j < s.cfg.maxBody ∧ s.buf.read (a + j) = some body[j] := by
  induction n generalizing a body with
  | zero =>
    simp only [bufBytes, Except.ok.injEq] at h
    subst h
    simp
  | succ n ih =>
    simp only [bufBytes] at h
    cases hr : bufRead s a with
    | error f => simp [hr] at h
    | ok v =>
      cases hb : bufBytes s (a + 1) n with
      | error f => simp [hr, hb] at h
      | ok vs =>
        simp only [hr, hb, Except.ok.injEq] at h
        subst h
        obtain ⟨hlen, hall⟩ := ih hb
        refine ⟨by simp [hlen], fun j hj => ?_⟩
        cases j with
        | zero =>
          unfold bufRead at hr
          split at hr
          · cases hr
          · split at hr
            · rename_i hmax w hw
              cases hr
              exact ⟨by omega, by simpa using hw⟩
            · cases hr
        | succ j =>
          have := hall j (by simpa using hj)
          simpa [Nat.add_assoc, Nat.add_comm 1 j] using this

/-- BUF as bytes depends only on the parameter and on BUF. -/
theorem bufBytes_congr {s t : State} (hc : t.cfg = s.cfg) (hb : t.buf = s.buf) (a n : Nat) :
    bufBytes t a n = bufBytes s a n := by
  induction n generalizing a with
  | zero => rfl
  | succ n ih => simp [bufBytes, bufRead, hc, hb, ih]

/-- Every byte of a block that holds values can be read. -/
theorem bufBytes_exists (s : State) (a n : Nat) (hmax : a + n ≤ s.cfg.maxBody)
    (h : ∀ j, j < n → (s.buf.read (a + j)).isSome) : ∃ body, bufBytes s a n = .ok body := by
  induction n generalizing a with
  | zero => exact ⟨[], rfl⟩
  | succ n ih =>
    obtain ⟨v, hv⟩ := Option.isSome_iff_exists.1 (h 0 (by omega))
    obtain ⟨vs, hvs⟩ := ih (a + 1) (by omega) fun j hj => by
      have := h (j + 1) (by omega)
      simpa [Nat.add_assoc, Nat.add_comm 1 j] using this
    have hr : bufRead s a = .ok v := bufRead_ok (by omega) hv
    exact ⟨v :: vs, by simp [bufBytes, hr, hvs]⟩

/-- A slice of BUF depends on the capacity and on BUF alone. -/
theorem bufSlice_congr {s s' : State} (hm : s'.cfg.maxBody = s.cfg.maxBody) (hb : s'.buf = s.buf) (a b : Nat) :
    bufSlice s' a b = bufSlice s a b := by
  have hread : ∀ a, bufRead s' a = bufRead s a := by
    intro a
    unfold bufRead
    rw [hm, hb]
  have hbytes : ∀ n a, bufBytes s' a n = bufBytes s a n := by
    intro n
    induction n with
    | zero => exact fun _ => rfl
    | succ n ih =>
      intro a
      rw [bufBytes, bufBytes, ih (a + 1), hread]
  exact hbytes _ _

end Sys2Proof.Laws
end

