-- ==== Sys2Proof/Laws/Parser.lean ====
section
/-! SUPPORT. What one received byte can do: the two ways it enters its transition, and what it leaves alone. -/

namespace Sys2Proof.Laws

open Sys2Proof.Machine

/-! ### Sequencing -/

@[simp] theorem andThen_next (s : State) (k : State → Out) : andThen (.next s) k = k s := rfl
@[simp] theorem andThen_fault (f : Fault) (k : State → Out) : andThen (.fault f) k = .fault f := rfl
@[simp] theorem andThen_refused (r : Refusal) (k : State → Out) : andThen (.refused r) k = .refused r := rfl

/-- A sequence answers a next state only through one of its first part. -/
theorem andThen_eq_next {o : Out} {k : State → Out} {t : State} (h : andThen o k = .next t) :
    ∃ u, o = .next u ∧ k u = .next t := by
  cases o with
  | next u => exact ⟨u, rfl, h⟩
  | fault f => cases h
  | refused r => cases h

theorem requireInit_true {s : State} {o : Out} (h : s.inited = true) : requireInit s o = o := by
  simp [requireInit, h]

theorem requireInit_false {s : State} {o : Out} (h : s.inited = false) :
    requireInit s o = .refused .notInitialised := by
  simp [requireInit, h]

/-- An operation that requires `INIT` answers a next state only after it. -/
theorem requireInit_eq_next {s t : State} {o : Out} (h : requireInit s o = .next t) :
    s.inited = true ∧ o = .next t := by
  unfold requireInit at h
  split at h
  · exact ⟨‹_›, h⟩
  · cases h

theorem onRead_eq_next {α : Type} {r : Except Fault α} {k : α → Out} {t : State} (h : onRead r k = .next t) :
    ∃ v, r = .ok v ∧ k v = .next t := by
  cases r with
  | ok v => exact ⟨v, rfl, h⟩
  | error f => cases h

/-! ### The two ways into a transition -/

/-- A byte that is on time is interpreted in the phase it finds. -/
theorem rxByte_onTime {b : Byte} {now : Nat} {s : State} (hi : s.inited = true) (hl : isLate now s = false) :
    rxByte b now s = transition b now { s with tLastByte := now } := by
  simp [rxByte, requireInit, hi, idlePreStep, hl]

/-- A late byte drops the partial frame and is interpreted in `WaitStart`. -/
theorem rxByte_late {b : Byte} {now : Nat} {s : State} (hi : s.inited = true) (hl : isLate now s = true) :
    rxByte b now s = .next (waitStartByte b { takeDrop .idleTimeout s with tLastByte := now }) := by
  simp [rxByte, requireInit, hi, idlePreStep, hl, transition]

theorem isLate_waitStart {now : Nat} {s : State} (h : s.phase = .waitStart) : isLate now s = false := by
  simp [isLate, h]

theorem isLate_of_elapsed_le {now : Nat} {s : State} (h : elapsed s.cfg now s.tLastByte ≤ s.cfg.idleTimeoutMs) :
    isLate now s = false := by
  simp [isLate, idleExpired, Nat.not_lt.2 h]

theorem isLate_of_lt {now : Nat} {s : State} (hp : s.phase ≠ .waitStart)
    (h : s.cfg.idleTimeoutMs < elapsed s.cfg now s.tLastByte) : isLate now s = true := by
  simp [isLate, idleExpired, hp, h]

theorem isLate_iff (now : Nat) (s : State) :
    isLate now s = true ↔ s.phase ≠ .waitStart ∧ s.cfg.idleTimeoutMs < elapsed s.cfg now s.tLastByte := by
  simp [isLate, idleExpired]

/-- Everything one received byte can do: a next state exists only after `INIT`, and is that of the late byte or of one
transition on time. -/
theorem rxByte_cases {b : Byte} {now : Nat} {s t : State} (h : rxByte b now s = .next t) :
    s.inited = true ∧
      ((isLate now s = true ∧ t = waitStartByte b { takeDrop .idleTimeout s with tLastByte := now }) ∨
        (isLate now s = false ∧ transition b now { s with tLastByte := now } = .next t)) := by
  have hi := (requireInit_eq_next h).1
  refine ⟨hi, ?_⟩
  cases hl : isLate now s with
  | true =>
    rw [rxByte_late hi hl] at h
    cases h
    exact .inl ⟨rfl, rfl⟩
  | false =>
    rw [rxByte_onTime hi hl] at h
    exact .inr ⟨rfl, h⟩

/-! ### The transition of each phase -/

theorem transition_waitStart {s : State} (h : s.phase = .waitStart) (b : Byte) (now : Nat) :
    transition b now s = .next (waitStartByte b s) := by simp [transition, h]

theorem transition_readLenHigh {s : State} (h : s.phase = .readLenHigh) (b : Byte) (now : Nat) :
    transition b now s = .next (lenHighByte b s) := by simp [transition, h]

theorem transition_readLenLow {s : State} (h : s.phase = .readLenLow) (b : Byte) (now : Nat) :
    transition b now s = .next (lenLowByte b s) := by simp [transition, h]

theorem transition_readBody {s : State} (h : s.phase = .readBody) (b : Byte) (now : Nat) :
    transition b now s = bodyByte b s := by simp [transition, h]

theorem transition_readChecksum {s : State} (h : s.phase = .readChecksum) (b : Byte) (now : Nat) :
    transition b now s = checksumByte b now s := by simp [transition, h]

/-- A body byte at an index that exists is stored and the cursor moves on. -/
theorem bodyByte_ok {s : State} (h : s.cursor.toNat < s.cfg.maxBody) (b : Byte) :
    bodyByte b s = .next (advanceCursor { s with buf := s.buf.write s.cursor.toNat b }) := by
  simp [bodyByte, bufWrite, Nat.not_le.2 h]

/-- The byte that completes the body moves the parser on. -/
theorem advanceCursor_last {s : State} (h : s.cursor + 1 = s.bodyLen) :
    advanceCursor s = { s with cursor := s.bodyLen, phase := .readChecksum } := by
  unfold advanceCursor
  dsimp only
  rw [if_pos h, h]

/-- Any other body byte leaves it in `ReadBody`. -/
theorem advanceCursor_more {s : State} (h : s.cursor + 1 ≠ s.bodyLen) :
    advanceCursor s = { s with cursor := s.cursor + 1 } := by
  unfold advanceCursor
  dsimp only
  rw [if_neg h]

/-- Below the declared length the cursor does not wrap (00_scope.md R12). -/
theorem cursor_succ_toNat {x len : BitVec 16} (h : x.toNat < len.toNat) : (x + 1).toNat = x.toNat + 1 := by
  have := len.isLt
  rw [BitVec.toNat_add, show (1 : BitVec 16).toNat = 1 from rfl]
  omega

/-! ### The dispatcher emits the action of the frame and nothing else -/

/-- `DISPATCH` appends the action of the frame and changes no register and not the TX stream. -/
theorem dispatch_eq (kind : Byte) (payload : List Byte) (s : State) :
    dispatch kind payload s = { s with effects := s.effects ++ actionOf s.cfg kind payload } := by
  have htx : ∀ e : Effect, e.txBytes = [] → s.emit e = { s with effects := s.effects ++ [e] } := by
    intro e he
    simp [State.emit, he]
  unfold dispatch actionOf
  split
  · exact htx _ rfl
  split
  · exact htx _ rfl
  split
  · exact htx _ rfl
  split
  · exact htx _ rfl
  split
  · unfold dispatchLabels
    cases labelSplit s.cfg payload with
    | none => simp
    | some labels => exact htx _ rfl
  · simp

/-- No action of a frame is a transmission or the disconnect notification. -/
theorem actionOf_mem {c : Cfg} {kind : Byte} {payload : List Byte} {e : Effect} (h : e ∈ actionOf c kind payload) :
    e.txBytes = [] ∧ e ≠ .bridgeDisconnected := by
  unfold actionOf at h
  split at h
  · simp_all [Effect.txBytes]
  split at h
  · simp_all [Effect.txBytes]
  split at h
  · simp_all [Effect.txBytes]
  split at h
  · simp_all [Effect.txBytes]
  split at h
  · cases hl : labelSplit c payload with
    | none => simp [hl] at h
    | some labels =>
      simp only [hl, Option.map_some, Option.toList_some, List.mem_singleton] at h
      subst h
      simp [Effect.txBytes]
  · simp at h

/-- A whole body that stands in BUF is what the parser reads back. -/
theorem bufSlice_body {s : State} {body : List Byte} (hm : s.bodyLen.toNat ≤ s.cfg.maxBody)
    (hl : s.bodyLen.toNat = body.length) (h : ∀ j (hj : j < body.length), s.buf.read j = some body[j]) :
    bufSlice s 0 s.bodyLen.toNat = .ok body := by
  unfold bufSlice
  rw [Nat.sub_zero, hl]
  exact bufBytes_ok s body 0 (by omega) fun j hj => by simpa using h j hj

/-- The valid frame whose body stands in BUF: liveness, the action, the return to `WaitStart`. -/
theorem acceptFrame_eq {s : State} {kind : Byte} {payload : List Byte} (now : Nat)
    (hm : s.bodyLen.toNat ≤ s.cfg.maxBody) (hl : s.bodyLen.toNat = (kind :: payload).length)
    (h : ∀ j (hj : j < (kind :: payload).length), s.buf.read j = some (kind :: payload)[j]) :
    acceptFrame now s = .next
      { s with
        effects := s.effects ++ actionOf s.cfg kind payload, tLastValid := now, connected := true,
        phase := .waitStart } := by
  simp only [List.length_cons] at hl
  have h0 : bufRead s 0 = .ok kind := bufRead_ok (by omega) (h 0 (Nat.succ_pos _))
  have h1 : bufSlice s 1 s.bodyLen.toNat = .ok payload := by
    unfold bufSlice
    rw [hl, Nat.add_sub_cancel]
    refine bufBytes_ok s payload 1 (by omega) fun j hj => ?_
    rw [Nat.add_comm]
    exact h (j + 1) (by simpa using hj)
  simp [acceptFrame, onRead, h0, h1, dispatch_eq, markAlive]

/-- The byte after a whole body: accepted if it equals the fold, dropped otherwise. -/
theorem checksumByte_eq {s : State} {kind : Byte} {payload : List Byte} (b : Byte) (now : Nat)
    (hm : s.bodyLen.toNat ≤ s.cfg.maxBody) (hl : s.bodyLen.toNat = (kind :: payload).length)
    (h : ∀ j (hj : j < (kind :: payload).length), s.buf.read j = some (kind :: payload)[j]) :
    checksumByte b now s = .next
      (if b = xorFold (kind :: payload) then
        { s with
          effects := s.effects ++ actionOf s.cfg kind payload, tLastValid := now, connected := true,
          phase := .waitStart }
      else takeDrop .badChecksum s) := by
  simp only [checksumByte, onRead, bufSlice_body hm hl h, acceptFrame_eq now hm hl h]
  split <;> rfl

/-! ### Transitions that answer -/

/-- Everything a transition can do, by the phase it is taken in. -/
theorem transition_cases {b : Byte} {now : Nat} {s t : State} (h : transition b now s = .next t) :
    (s.phase = .waitStart ∧ t = waitStartByte b s) ∨
    (s.phase = .readLenHigh ∧ t = lenHighByte b s) ∨
    (s.phase = .readLenLow ∧ t = lenLowByte b s) ∨
    (s.phase = .readBody ∧ s.cursor.toNat < s.cfg.maxBody ∧
      t = advanceCursor { s with buf := s.buf.write s.cursor.toNat b }) ∨
    (s.phase = .readChecksum ∧ ∃ body, bufSlice s 0 s.bodyLen.toNat = .ok body ∧
      ((b ≠ xorFold body ∧ t = takeDrop .badChecksum s) ∨
        (b = xorFold body ∧ ∃ kind payload, bufRead s 0 = .ok kind ∧ bufSlice s 1 s.bodyLen.toNat = .ok payload ∧
          t = { dispatch kind payload (markAlive now s) with phase := .waitStart }))) := by
  unfold transition at h
  split at h
  · rename_i hp
    cases h
    exact .inl ⟨hp, rfl⟩
  · rename_i hp
    cases h
    exact .inr (.inl ⟨hp, rfl⟩)
  · rename_i hp
    cases h
    exact .inr (.inr (.inl ⟨hp, rfl⟩))
  · rename_i hp
    obtain ⟨u, hu, hk⟩ := andThen_eq_next h
    unfold bufWrite at hu
    split at hu
    · cases hu
    · rename_i hm
      cases hu
      cases hk
      exact .inr (.inr (.inr (.inl ⟨hp, by omega, rfl⟩)))
  · rename_i hp
    obtain ⟨body, hb, hk⟩ := onRead_eq_next h
    refine .inr (.inr (.inr (.inr ⟨hp, body, hb, ?_⟩)))
    split at hk
    · rename_i he
      obtain ⟨kind, hkind, hk⟩ := onRead_eq_next hk
      obtain ⟨payload, hpay, hk⟩ := onRead_eq_next hk
      cases hk
      exact .inr ⟨he, kind, payload, hkind, hpay, rfl⟩
    · rename_i he
      cases hk
      exact .inl ⟨he, rfl⟩

/-! ### What a received byte leaves alone -/

theorem waitStartByte_rest (b : Byte) (s : State) :
    waitStartByte b s = { s with
      phase := (waitStartByte b s).phase, cursor := (waitStartByte b s).cursor, drops := (waitStartByte b s).drops } := by
  unfold waitStartByte takeDrop
  split <;> rfl

theorem lenLowByte_rest (b : Byte) (s : State) :
    lenLowByte b s = { s with
      phase := (lenLowByte b s).phase, bodyLen := (lenLowByte b s).bodyLen, drops := (lenLowByte b s).drops } := by
  unfold lenLowByte boundCheck takeDrop
  dsimp only
  split
  · rfl
  · split <;> rfl

theorem advanceCursor_rest (s : State) :
    advanceCursor s = { s with phase := (advanceCursor s).phase, cursor := s.cursor + 1 } := by
  unfold advanceCursor
  dsimp only
  split <;> rfl

/-- One received byte leaves the parameter, `inited`, the heartbeat timer, the lines, the TX stream, the answer and the
inputs to come as they were. -/
theorem rxByte_keeps {b : Byte} {now : Nat} {s t : State} (h : rxByte b now s = .next t) :
    t.cfg = s.cfg ∧ t.inited = s.inited ∧ t.tLastHb = s.tLastHb ∧ t.lines = s.lines ∧ t.tx = s.tx ∧
      t.pending = s.pending ∧ t.result = s.result ∧ t.tLastByte = now := by
  obtain ⟨-, ⟨-, rfl⟩ | ⟨-, ht⟩⟩ := rxByte_cases h
  · rw [waitStartByte_rest]
    simp
  · rcases transition_cases ht with ⟨-, rfl⟩ | ⟨-, rfl⟩ | ⟨-, rfl⟩ | ⟨-, -, rfl⟩ | ⟨-, body, -, ⟨-, rfl⟩ | ⟨-, k, p, -, -, rfl⟩⟩
    · rw [waitStartByte_rest]
      simp
    · simp [lenHighByte]
    · rw [lenLowByte_rest]
      simp
    · rw [advanceCursor_rest]
      simp
    · simp
    · rw [dispatch_eq]
      simp

/-! ### What a received byte does to the session -/

/-- A received byte either is the last of a valid frame, and then the session is alive from its time, or leaves the
session as it was. -/
theorem rxByte_session {b : Byte} {now : Nat} {s t : State} (h : rxByte b now s = .next t) :
    (∃ body, completesFrame b now s body ∧ t.tLastValid = now ∧ t.connected = true) ∨
      (t.tLastValid = s.tLastValid ∧ t.connected = s.connected) := by
  obtain ⟨-, ⟨-, rfl⟩ | ⟨hl, ht⟩⟩ := rxByte_cases h
  · rw [waitStartByte_rest]
    exact .inr ⟨rfl, rfl⟩
  · rcases transition_cases ht with ⟨-, rfl⟩ | ⟨-, rfl⟩ | ⟨-, rfl⟩ | ⟨-, -, rfl⟩ |
      ⟨hp, body, hb, ⟨-, rfl⟩ | ⟨he, kind, payload, -, -, rfl⟩⟩
    · rw [waitStartByte_rest]
      exact .inr ⟨rfl, rfl⟩
    · exact .inr ⟨rfl, rfl⟩
    · rw [lenLowByte_rest]
      exact .inr ⟨rfl, rfl⟩
    · rw [advanceCursor_rest]
      exact .inr ⟨rfl, rfl⟩
    · exact .inr ⟨rfl, rfl⟩
    · rw [dispatch_eq]
      have hslice := bufSlice_congr (s := s) (s' := { s with tLastByte := now }) rfl rfl 0 s.bodyLen.toNat
      exact .inl ⟨body, ⟨hp, hl, hslice.symm.trans hb, he⟩, rfl, rfl⟩

/-- The last byte of a valid frame answers, and the parser waits again. -/
theorem rxByte_completes {b : Byte} {now : Nat} {s : State} {kind : Byte} {payload : List Byte} (hi : s.inited = true)
    (h : completesFrame b now s (kind :: payload)) :
    ∃ t, rxByte b now s = .next t ∧ t.phase = .waitStart ∧ t.tLastValid = now ∧ t.connected = true := by
  obtain ⟨hp, hl, hb, he⟩ := h
  obtain ⟨hlen, hall⟩ := bufBytes_spec hb
  have hmax : s.bodyLen.toNat ≤ s.cfg.maxBody := by
    have := (hall payload.length (by simp)).1
    simp only [List.length_cons] at hlen
    omega
  rw [rxByte_onTime hi hl, transition_readChecksum (s := { s with tLastByte := now }) hp,
    checksumByte_eq (s := { s with tLastByte := now }) b now hmax hlen.symm fun j hj => by simpa using (hall j hj).2,
    if_pos he]
  exact ⟨_, rfl, rfl, rfl, rfl⟩

end Sys2Proof.Laws
end

