-- ==== Sys2Proof/Laws/Reception.lean ====
section
/-! SUPPORT. What a sequence of received bytes does: sequences compose, and the bytes of a well-formed frame are
reassembled in BUF. -/

namespace Sys2Proof.Laws

open Sys2Proof.Machine

/-! ### Sequences -/

@[simp] theorem rxAll_nil (s : State) : rxAll [] s = .next s := rfl

theorem rxAll_cons (b : Byte) (now : Nat) (rest : List (Byte × Nat)) (s : State) :
    rxAll ((b, now) :: rest) s = andThen (rxByte b now s) (rxAll rest) := rfl

theorem andThen_assoc (o : Out) (k l : State → Out) :
    andThen (andThen o k) l = andThen o fun s => andThen (k s) l := by
  cases o <;> rfl

theorem rxAll_append (as bs : List (Byte × Nat)) (s : State) :
    rxAll (as ++ bs) s = andThen (rxAll as s) (rxAll bs) := by
  induction as generalizing s with
  | nil => rfl
  | cons p rest ih =>
    obtain ⟨b, now⟩ := p
    rw [List.cons_append, rxAll_cons, rxAll_cons, andThen_assoc]
    congr 1
    funext u
    exact ih u

/-- A property that every received byte keeps is kept by a sequence of them. -/
theorem rxAll_induction {motive : State → Prop} (hstep : ∀ b now s t, motive s → rxByte b now s = .next t → motive t)
    {rx : List (Byte × Nat)} {s t : State} (hs : motive s) (h : rxAll rx s = .next t) : motive t := by
  induction rx generalizing s with
  | nil =>
    cases h
    exact hs
  | cons p rest ih =>
    obtain ⟨b, now⟩ := p
    obtain ⟨u, hu, hk⟩ := andThen_eq_next h
    exact ih (hstep b now s u hs hu) hk

/-- Received bytes leave everything outside the parser and the session as it was. -/
theorem rxAll_keeps {rx : List (Byte × Nat)} {s t : State} (h : rxAll rx s = .next t) :
    t.cfg = s.cfg ∧ t.inited = s.inited ∧ t.tLastHb = s.tLastHb ∧ t.lines = s.lines ∧ t.tx = s.tx ∧
      t.pending = s.pending ∧ t.result = s.result := by
  refine rxAll_induction (motive := fun u => u.cfg = s.cfg ∧ u.inited = s.inited ∧ u.tLastHb = s.tLastHb ∧
    u.lines = s.lines ∧ u.tx = s.tx ∧ u.pending = s.pending ∧ u.result = s.result) ?_ ⟨rfl, rfl, rfl, rfl, rfl, rfl, rfl⟩ h
  intro b now u v hu hv
  obtain ⟨h1, h2, h3, h4, h5, h6, h7, -⟩ := rxByte_keeps hv
  obtain ⟨g1, g2, g3, g4, g5, g6, g7⟩ := hu
  exact ⟨h1.trans g1, h2.trans g2, h3.trans g3, h4.trans g4, h5.trans g5, h6.trans g6, h7.trans g7⟩

/-! ### Bytes written one after another -/

/-- BUF after the bytes `bs` are stored from index `a` on. -/
def writeAll (m : Memory) (a : Nat) (bs : List Byte) : Memory :=
  match bs with
  | [] => m
  | b :: rest => writeAll (m.write a b) (a + 1) rest

theorem read_writeAll_other (m : Memory) (a : Nat) (bs : List Byte) (x : Nat) (h : x < a ∨ a + bs.length ≤ x) :
    (writeAll m a bs).read x = m.read x := by
  induction bs generalizing m a with
  | nil => rfl
  | cons b rest ih =>
    simp only [List.length_cons] at h
    rw [writeAll, ih _ _ (by omega), read_write_other _ _ _ _ (by omega)]

theorem read_writeAll (m : Memory) (a : Nat) (bs : List Byte) (j : Nat) (hj : j < bs.length) :
    (writeAll m a bs).read (a + j) = some bs[j] := by
  induction bs generalizing m a j with
  | nil => simp at hj
  | cons b rest ih =>
    cases j with
    | zero =>
      rw [writeAll, read_writeAll_other _ _ _ _ (by omega)]
      simp
    | succ j =>
      have := ih (m.write a b) (a + 1) j (by simpa using hj)
      rw [writeAll, show a + (j + 1) = a + 1 + j by omega, this]
      rfl

/-! ### A well-formed frame, byte by byte -/

/-- A marker that finds the parser waiting, or comes late, opens a frame. -/
theorem rxByte_marker {now : Nat} {s : State} (hi : s.inited = true) (hr : ready now s) :
    rxByte Config.marker now s = .next
      { s with
        tLastByte := now, cursor := 0, phase := .readLenHigh, drops := s.drops ++ entryDrops now s } := by
  rcases hr with hp | hl
  · rw [rxByte_onTime hi (isLate_waitStart hp), transition_waitStart (by exact hp)]
    simp [waitStartByte, entryDrops, isLate_waitStart hp]
  · rw [rxByte_late hi hl]
    simp [waitStartByte, entryDrops, hl, takeDrop]

/-- The three header bytes of a frame whose length is from 1 to `MAX_BODY`. -/
theorem rxAll_header {s : State} {len : BitVec 16} {t0 t1 t2 : Nat} (hi : s.inited = true) (hr : ready t0 s)
    (hpos : 1 ≤ len.toNat) (hmax : len.toNat ≤ s.cfg.maxBody) (h1 : idleExpired s.cfg t1 t0 = false)
    (h2 : idleExpired s.cfg t2 t1 = false) :
    rxAll [(Config.marker, t0), (lenHi len, t1), (lenLo len, t2)] s = .next
      { s with
        tLastByte := t2, cursor := 0, bodyLen := len, phase := .readBody,
        drops := s.drops ++ entryDrops t0 s } := by
  rw [rxAll_cons, rxByte_marker hi hr, andThen_next, rxAll_cons,
    rxByte_onTime (by exact hi) (by simp [isLate, h1]), transition_readLenHigh rfl, andThen_next, rxAll_cons,
    rxByte_onTime (by exact hi) (by simp [isLate, lenHighByte, h2]), transition_readLenLow (by rfl)]
  have hz : lenTooLong s.cfg len = false := by simpa [lenTooLong] using hmax
  have hnz : lenIsZero len = false := by
    simp only [lenIsZero, decide_eq_false_iff_not]
    omega
  simp [lenLowByte, lenHighByte, boundCheck, hz, hnz]

/-- The body bytes of a frame, stored one after another up to the declared length. -/
theorem rxAll_body (bs : List Byte) (times : List Nat) (s : State) (hne : bs ≠ []) (hlen : times.length = bs.length)
    (hi : s.inited = true) (hp : s.phase = .readBody) (hc : s.cursor.toNat + bs.length = s.bodyLen.toNat)
    (hmax : s.bodyLen.toNat ≤ s.cfg.maxBody) (hg : noGap s.cfg s.tLastByte times) :
    rxAll (bs.zip times) s = .next
      { s with
        tLastByte := times.getLastD s.tLastByte, cursor := s.bodyLen, phase := .readChecksum,
        buf := writeAll s.buf s.cursor.toNat bs } := by
  induction bs generalizing times s with
  | nil => exact absurd rfl hne
  | cons b rest ih =>
    cases times with
    | nil => simp at hlen
    | cons now times =>
      obtain ⟨hnow, hrest⟩ := hg
      simp only [List.length_cons, Nat.add_right_cancel_iff] at hlen hc
      have hcur : (s.cursor + 1).toNat = s.cursor.toNat + 1 := cursor_succ_toNat (len := s.bodyLen) (by omega)
      rw [List.zip_cons_cons, rxAll_cons, rxByte_onTime hi (by simp [isLate, hnow]),
        transition_readBody (s := { s with tLastByte := now }) hp,
        bodyByte_ok (s := { s with tLastByte := now }) (show s.cursor.toNat < s.cfg.maxBody by omega), andThen_next]
      cases rest with
      | nil =>
        have hnil : times = [] := List.length_eq_zero_iff.1 hlen
        have heq : s.cursor + 1 = s.bodyLen := by
          rw [← BitVec.toNat_inj, hcur]
          simpa using hc
        subst hnil
        rw [advanceCursor_last (by exact heq)]
        rfl
      | cons b' rest =>
        have hneq : s.cursor + 1 ≠ s.bodyLen := by
          rw [ne_eq, ← BitVec.toNat_inj, hcur]
          simp only [List.length_cons] at hc
          omega
        rw [advanceCursor_more (by exact hneq),
          ih times { s with tLastByte := now, buf := s.buf.write s.cursor.toNat b, cursor := s.cursor + 1 } (by simp)
            hlen hi hp (show (s.cursor + 1).toNat + (b' :: rest).length = s.bodyLen.toNat by rw [hcur]; omega) hmax hrest]
        simp only [hcur, List.getLastD_cons]
        cases times with
        | nil => simp at hlen
        | cons t' times => rfl

theorem noGap_append {c : Cfg} {t : Nat} {as bs : List Nat} (h : noGap c t (as ++ bs)) :
    noGap c t as ∧ noGap c (as.getLastD t) bs := by
  induction as generalizing t with
  | nil => exact ⟨trivial, h⟩
  | cons a rest ih =>
    obtain ⟨h1, h2⟩ := h
    obtain ⟨h3, h4⟩ := ih h2
    refine ⟨⟨h1, h3⟩, ?_⟩
    rw [List.getLastD_cons]
    exact h4

/-- Bytes that all arrive at one time leave no gap. -/
theorem noGap_replicate (c : Cfg) (t n : Nat) : noGap c t (List.replicate n t) := by
  induction n with
  | zero => trivial
  | succ n ih => exact ⟨idleExpired_self c t, ih⟩

/-- A frame whose header is well formed reaches the checksum with its body in BUF, and the checksum byte decides. -/
theorem rxAll_frame (s : State) (kind : Byte) (p : List Byte) (check : Byte) (len : BitVec 16) (t0 t1 t2 : Nat)
    (times : List Nat) (tc : Nat) (hi : s.inited = true) (hr : ready t0 s) (hlen : len.toNat = 1 + p.length)
    (hmax : p.length < s.cfg.maxBody) (htimes : times.length = 1 + p.length)
    (hg : noGap s.cfg t0 (t1 :: t2 :: (times ++ [tc]))) :
    ∃ u : State, u = { s with
          tLastByte := tc, cursor := len, bodyLen := len, phase := .readChecksum,
          drops := s.drops ++ entryDrops t0 s, buf := writeAll s.buf 0 (kind :: p) } ∧
      rxAll ((Config.marker, t0) :: (lenHi len, t1) :: (lenLo len, t2) ::
          ((kind :: p).zip times ++ [(check, tc)])) s = .next
        (if check = xorFold (kind :: p) then
          { u with
            effects := s.effects ++ actionOf s.cfg kind p, tLastValid := tc, connected := true,
            phase := .waitStart }
        else takeDrop .badChecksum u) := by
  obtain ⟨h1, h2, h3⟩ := hg
  obtain ⟨hb, hlast⟩ := noGap_append h3
  refine ⟨_, rfl, ?_⟩
  have hhead := rxAll_header (len := len) hi hr (by omega) (by omega) h1 h2
  have hbody := rxAll_body (kind :: p) times
    { s with tLastByte := t2, cursor := 0, bodyLen := len, phase := .readBody, drops := s.drops ++ entryDrops t0 s }
    (by simp) (by rw [htimes, List.length_cons, Nat.add_comm]) hi rfl
    (show 0 + (kind :: p).length = len.toNat by rw [hlen, List.length_cons]; omega)
    (show len.toNat ≤ s.cfg.maxBody by omega) hb
  rw [show ∀ a b c (l : List (Byte × Nat)), a :: b :: c :: l = [a, b, c] ++ l from fun _ _ _ _ => rfl, rxAll_append,
    hhead, andThen_next, rxAll_append, hbody, andThen_next, rxAll_cons]
  have hl2 : idleExpired s.cfg tc (times.getLastD t2) = false := hlast.1
  rw [rxByte_onTime (by exact hi) (by simp only [isLate, hl2, Bool.and_false]), transition_readChecksum rfl]
  rw [checksumByte_eq (kind := kind) (payload := p) check tc (show len.toNat ≤ s.cfg.maxBody by omega)
    (show len.toNat = (kind :: p).length by rw [hlen, List.length_cons, Nat.add_comm]) (fun j hj => by
      have := read_writeAll s.buf 0 (kind :: p) j hj
      rwa [Nat.zero_add] at this)]
  rfl

end Sys2Proof.Laws
end

