-- ==== Sys2Proof/Laws/Parts.lean ====
section
/-! SUPPORT. What the tick, the silence check and the heartbeat check can change, and a poll cycle cut into its four
parts. -/

namespace Sys2Proof.Laws

open Sys2Proof.Machine

/-! ### What each part leaves alone -/

/-- A line's step writes the line file and, if it reports, the outputs. -/
theorem stepLine_rest (i : Fin 4) (levels : BitVec 4) (now : Nat) (s : State) :
    stepLine i levels now s = { s with
      lines := (stepLine i levels now s).lines, tx := (stepLine i levels now s).tx,
      effects := (stepLine i levels now s).effects } := by
  unfold stepLine sendButton State.emit
  dsimp only
  split <;> rfl

/-- A tick writes the line file and the outputs. -/
theorem sampleLines_rest (levels : BitVec 4) (now : Nat) (s : State) :
    sampleLines levels now s = { s with
      lines := (sampleLines levels now s).lines, tx := (sampleLines levels now s).tx,
      effects := (sampleLines levels now s).effects } := by
  unfold sampleLines
  rw [stepLine_rest 3, stepLine_rest 2, stepLine_rest 1, stepLine_rest 0]

/-- The silence check writes `connected` and the effects. -/
theorem silenceCheck_rest (now : Nat) (s : State) :
    silenceCheck now s = { s with
      connected := (silenceCheck now s).connected, effects := (silenceCheck now s).effects } := by
  unfold silenceCheck State.emit
  split
  · simp [Effect.txBytes]
  · rfl

/-- The heartbeat check writes the heartbeat timer and the outputs. -/
theorem beatCheck_rest (now : Nat) (status : Byte) (s : State) :
    beatCheck now status s = { s with
      tLastHb := (beatCheck now status s).tLastHb, tx := (beatCheck now status s).tx,
      effects := (beatCheck now status s).effects } := by
  unfold beatCheck sendBeat State.emit
  split <;> rfl

/-! ### The parts of a poll cycle -/

/-- Either the cycle has no tick and changes nothing, or it has one, after `INIT`. -/
theorem cycleTick_cases {tick : Option (BitVec 4 × Nat)} {s t : State} (h : cycleTick tick s = .next t) :
    (tick = none ∧ t = s) ∨
      ∃ levels now, tick = some (levels, now) ∧ s.inited = true ∧ t = sampleLines levels now s := by
  cases tick with
  | none =>
    cases h
    exact .inl ⟨rfl, rfl⟩
  | some p =>
    obtain ⟨hi, ht⟩ := requireInit_eq_next h
    cases ht
    exact .inr ⟨p.1, p.2, rfl, hi, rfl⟩

/-- Either the cycle has no silence check and changes nothing, or it has one, after `INIT`. -/
theorem cycleSilence_cases {silence : Option Nat} {s t : State} (h : cycleSilence silence s = .next t) :
    (silence = none ∧ t = s) ∨ ∃ now, silence = some now ∧ s.inited = true ∧ t = silenceCheck now s := by
  cases silence with
  | none =>
    cases h
    exact .inl ⟨rfl, rfl⟩
  | some now =>
    obtain ⟨hi, ht⟩ := requireInit_eq_next h
    cases ht
    exact .inr ⟨now, rfl, hi, rfl⟩

/-- Either the cycle has no heartbeat check and changes nothing, or it has one, after `INIT`. -/
theorem cycleBeat_cases {beat : Option (Nat × Byte)} {s t : State} (h : cycleBeat beat s = .next t) :
    (beat = none ∧ t = s) ∨
      ∃ now status, beat = some (now, status) ∧ s.inited = true ∧ t = beatCheck now status s := by
  cases beat with
  | none =>
    cases h
    exact .inl ⟨rfl, rfl⟩
  | some p =>
    obtain ⟨hi, ht⟩ := requireInit_eq_next h
    cases ht
    exact .inr ⟨p.1, p.2, rfl, hi, rfl⟩

/-- A poll cycle that answers went through its four parts in order. -/
theorem execPollCycle_cases {rx : List (Byte × Nat)} {tick : Option (BitVec 4 × Nat)} {silence : Option Nat}
    {beat : Option (Nat × Byte)} {s t : State} (h : execPollCycle rx tick silence beat s = .next t) :
    ∃ u v w, rxAll rx s.beginStep = .next u ∧ cycleTick tick u = .next v ∧ cycleSilence silence v = .next w ∧
      cycleBeat beat w = .next t := by
  obtain ⟨w, hw, h4⟩ := andThen_eq_next h
  obtain ⟨v, hv, h3⟩ := andThen_eq_next hw
  obtain ⟨u, hu, h2⟩ := andThen_eq_next hv
  exact ⟨u, v, w, hu, h2, h3, h4⟩

end Sys2Proof.Laws
end

