-- ==== Sys2Proof/Laws/Lines.lean ====
section
/-! SUPPORT. The debounce engine: what one line's step can do, and a tick seen line by line. -/

namespace Sys2Proof.Laws

open Sys2Proof.Machine

/-- Everything `LINE_STEP` can do: nothing while the line is frozen; otherwise the filter takes the corrected sample, and
the line reports exactly when the edge test holds. -/
theorem lineStep_cases (c : Cfg) (level : Bool) (now : Nat) (L : ButtonLine) (v : Bool) (hv : v = xor level L.activeLow) :
    (frozenAt c now L ∧ lineStep c level now L = (L, none)) ∨
    (¬frozenAt c now L ∧ edgeAt c now L v (countAfter c L v) ∧
      lineStep c level now L =
        ({ L with cand := v, cnt := countAfter c L v, reported := v, tRep := now }, some v)) ∨
    (¬frozenAt c now L ∧ ¬edgeAt c now L v (countAfter c L v) ∧
      lineStep c level now L = ({ L with cand := v, cnt := countAfter c L v }, none)) := by
  have hF : filterSample c (correctedSample L level) L = { L with cand := v, cnt := countAfter c L v } := by
    unfold filterSample correctedSample countAfter satInc
    rw [← hv]
    split
    · rename_i h
      obtain ⟨a, b, d, e, f⟩ := L
      simp only at h ⊢
      rw [h]
    · rfl
  unfold lineStep
  dsimp only
  by_cases hf : frozenAt c now L
  · exact .inl ⟨hf, by rw [if_pos (by simpa [inQuiet, frozenAt] using hf)]⟩
  · have hr : reportDue c (inQuiet c now L.tRep) { L with cand := v, cnt := countAfter c L v } = true ↔
        edgeAt c now L v (countAfter c L v) := by
      simp [reportDue, threshReached, inQuiet, edgeAt, and_assoc]
    rw [if_neg (by simpa [inQuiet, frozenAt] using hf), hF]
    by_cases he : edgeAt c now L v (countAfter c L v)
    · exact .inr (.inl ⟨hf, he, by rw [if_pos (hr.2 he)]⟩)
    · exact .inr (.inr ⟨hf, he, by rw [if_neg fun h => he (hr.1 h)]⟩)

theorem rawLevel_eq (levels : BitVec 4) (i : Fin 4) : rawLevel levels i = levels[i.val] := by
  simp [rawLevel, BitVec.getLsbD_eq_getElem]

theorem stepLine_get_same (i : Fin 4) (levels : BitVec 4) (now : Nat) (s : State) :
    (stepLine i levels now s).lines.get i = (lineStep s.cfg (rawLevel levels i) now (s.lines.get i)).1 := by
  unfold stepLine
  dsimp only
  split <;> simp [sendButton]

theorem stepLine_get_other (i j : Fin 4) (levels : BitVec 4) (now : Nat) (s : State) (h : i ≠ j) :
    (stepLine i levels now s).lines.get j = s.lines.get j := by
  unfold stepLine
  dsimp only
  split <;> simp [sendButton, lines_get_set_other _ _ _ _ h]

theorem stepLine_cfg (i : Fin 4) (levels : BitVec 4) (now : Nat) (s : State) : (stepLine i levels now s).cfg = s.cfg := by
  rw [stepLine_rest]

theorem stepLine_effects (i : Fin 4) (levels : BitVec 4) (now : Nat) (s : State) :
    (stepLine i levels now s).effects =
      s.effects ++ ((lineStep s.cfg (rawLevel levels i) now (s.lines.get i)).2.map (buttonTx s.cfg i)).toList := by
  unfold stepLine
  dsimp only
  split <;> rename_i h <;> simp [sendButton, h, buttonTx]

/-- After a tick every line holds what its own step leaves, computed from the line before the tick. -/
theorem sampleLines_get (levels : BitVec 4) (now : Nat) (s : State) (i : Fin 4) :
    (sampleLines levels now s).lines.get i = (lineStep s.cfg (rawLevel levels i) now (s.lines.get i)).1 := by
  unfold sampleLines
  match i with
  | 0 | 1 | 2 | 3 => simp [stepLine_get_same, stepLine_get_other, stepLine_cfg]

/-- The effects of a tick: one button event per reporting line, in ascending order. -/
theorem sampleLines_effects (levels : BitVec 4) (now : Nat) (s : State) :
    (sampleLines levels now s).effects = s.effects ++
      ([0, 1, 2, 3] : List (Fin 4)).flatMap fun i =>
        ((lineStep s.cfg (rawLevel levels i) now (s.lines.get i)).2.map (buttonTx s.cfg i)).toList := by
  have h1 : (stepLine 0 levels now s).lines.get 1 = s.lines.get 1 := stepLine_get_other _ _ _ _ _ (by decide)
  have h2 : (stepLine 1 levels now (stepLine 0 levels now s)).lines.get 2 = s.lines.get 2 := by
    rw [stepLine_get_other _ _ _ _ _ (by decide), stepLine_get_other _ _ _ _ _ (by decide)]
  have h3 : (stepLine 2 levels now (stepLine 1 levels now (stepLine 0 levels now s))).lines.get 3 = s.lines.get 3 := by
    rw [stepLine_get_other _ _ _ _ _ (by decide), stepLine_get_other _ _ _ _ _ (by decide),
      stepLine_get_other _ _ _ _ _ (by decide)]
  unfold sampleLines
  simp [stepLine_effects, stepLine_cfg, h1, h2, h3]

/-- Two button events are the same frame only for the same line and the same state. -/
theorem buttonTx_inj {c : Cfg} {i j : Fin 4} {x y : Bool} (h : buttonTx c i x = buttonTx c j y) : i = j ∧ x = y := by
  simp only [buttonTx, frameOf, wireBytes, buttonPayload, Effect.tx.injEq, List.cons_append, List.nil_append,
    List.cons.injEq, true_and] at h
  obtain ⟨-, -, h1, h2, -⟩ := h
  refine ⟨?_, ?_⟩
  · ext
    have := congrArg BitVec.toNat h1
    simp only [BitVec.toNat_ofNat] at this
    omega
  · cases x <;> cases y <;> simp_all

/-- The count of a line stays between 1 and its largest value. -/
theorem lineStep_cnt (c : Cfg) (level : Bool) (now : Nat) (L : ButtonLine) (hm : 1 ≤ 2 ^ c.cntW - 1)
    (h : 1 ≤ L.cnt ∧ L.cnt ≤ 2 ^ c.cntW - 1) :
    1 ≤ (lineStep c level now L).1.cnt ∧ (lineStep c level now L).1.cnt ≤ 2 ^ c.cntW - 1 := by
  have hcount : ∀ v, 1 ≤ countAfter c L v ∧ countAfter c L v ≤ 2 ^ c.cntW - 1 := by
    intro v
    unfold countAfter
    split
    · exact ⟨Nat.le_min.2 ⟨Nat.succ_pos _, hm⟩, Nat.min_le_right _ _⟩
    · exact ⟨Nat.le_refl _, hm⟩
  rcases lineStep_cases c level now L _ rfl with ⟨-, e⟩ | ⟨-, -, e⟩ | ⟨-, -, e⟩ <;> rw [e]
  · exact h
  · exact hcount _
  · exact hcount _

/-- A sample equal to the candidate never lowers the count of a line, and leaves it at its largest value. -/
theorem lineStep_cnt_equal (c : Cfg) (level : Bool) (now : Nat) (L : ButtonLine) (h : L.cnt ≤ 2 ^ c.cntW - 1)
    (he : xor level L.activeLow = L.cand) :
    L.cnt ≤ (lineStep c level now L).1.cnt ∧
      (L.cnt = 2 ^ c.cntW - 1 → (lineStep c level now L).1.cnt = 2 ^ c.cntW - 1) := by
  have hcount : countAfter c L (xor level L.activeLow) = min (L.cnt + 1) (2 ^ c.cntW - 1) := if_pos he
  rcases lineStep_cases c level now L _ rfl with ⟨-, e⟩ | ⟨-, -, e⟩ | ⟨-, -, e⟩ <;> rw [e]
  · exact ⟨Nat.le_refl _, id⟩
  all_goals
    dsimp only
    rw [hcount]
    omega

/-- Two counts that agree up to the threshold still do after a sample, if both widths can hold the threshold. -/
theorem countAfter_same {c : Cfg} {w : Nat} {L M : ButtonLine} (v : Bool) (h : sameUpToCount c.matchThresh L M)
    (hc : c.matchThresh ≤ 2 ^ c.cntW - 1) (hw : c.matchThresh ≤ 2 ^ w - 1) :
    min (countAfter c L v) c.matchThresh = min (countAfter { c with cntW := w } M v) c.matchThresh := by
  obtain ⟨-, h2, -, -, h5⟩ := h
  unfold countAfter
  rw [h2]
  split
  · dsimp only
    omega
  · rfl

/-- The width of the counter is not seen by a line's step: lines that agree up to the threshold report the same and
still agree. -/
theorem lineStep_same {c : Cfg} {w : Nat} {L M : ButtonLine} (level : Bool) (now : Nat)
    (h : sameUpToCount c.matchThresh L M) (hc : c.matchThresh ≤ 2 ^ c.cntW - 1) (hw : c.matchThresh ≤ 2 ^ w - 1) :
    (lineStep c level now L).2 = (lineStep { c with cntW := w } level now M).2 ∧
      sameUpToCount c.matchThresh (lineStep c level now L).1 (lineStep { c with cntW := w } level now M).1 := by
  have hcnt := countAfter_same (xor level L.activeLow) h hc hw
  have hsame := h
  obtain ⟨h1, -, h3, h4, -⟩ := h
  have hfrozen : frozenAt { c with cntW := w } now M ↔ frozenAt c now L := by
    unfold frozenAt
    rw [h4]
    rfl
  have hedge : edgeAt { c with cntW := w } now M (xor level L.activeLow)
        (countAfter { c with cntW := w } M (xor level L.activeLow)) ↔
      edgeAt c now L (xor level L.activeLow) (countAfter c L (xor level L.activeLow)) := by
    unfold edgeAt
    rw [h3, h4]
    refine and_congr ?_ Iff.rfl
    dsimp only
    omega
  rcases lineStep_cases c level now L _ rfl with ⟨hf, e⟩ | ⟨hf, he, e⟩ | ⟨hf, he, e⟩ <;>
    rcases lineStep_cases { c with cntW := w } level now M (xor level L.activeLow) (by rw [h1]) with
      ⟨hf', e'⟩ | ⟨hf', he', e'⟩ | ⟨hf', he', e'⟩
  · rw [e, e']
    exact ⟨rfl, hsame⟩
  · exact absurd (hfrozen.2 hf) hf'
  · exact absurd (hfrozen.2 hf) hf'
  · exact absurd (hfrozen.1 hf') hf
  · rw [e, e']
    exact ⟨rfl, h1, rfl, rfl, rfl, hcnt⟩
  · exact absurd (hedge.2 he) he'
  · exact absurd (hfrozen.1 hf') hf
  · exact absurd (hedge.1 he') he
  · rw [e, e']
    exact ⟨rfl, h1, rfl, h3, h4, hcnt⟩

end Sys2Proof.Laws
end

