-- ==== Sys2Proof/Laws/Counts.lean ====
section
/-! SUPPORT. What reads neither the counter width nor the line records: receiving bytes gives the same whatever they
hold, and operations that answer alike compose. -/

namespace Sys2Proof.Laws

open Sys2Proof.Machine

/-! ### Reception -/

theorem waitStartByte_withCounts (b : Byte) (s : State) (w : Nat) (ls : Lines) :
    waitStartByte b (s.withCounts w ls) = (waitStartByte b s).withCounts w ls := by
  unfold waitStartByte
  split <;> rfl

theorem boundCheck_withCounts (s : State) (w : Nat) (ls : Lines) :
    boundCheck (s.withCounts w ls) = (boundCheck s).withCounts w ls := by
  unfold boundCheck
  by_cases hlong : lenTooLong s.cfg s.bodyLen = true
  · rw [if_pos hlong, if_pos (by exact hlong)]
    rfl
  · rw [if_neg hlong, if_neg (by exact hlong)]
    by_cases hzero : lenIsZero s.bodyLen = true
    · rw [if_pos hzero, if_pos (by exact hzero)]
      rfl
    · rw [if_neg hzero, if_neg (by exact hzero)]
      rfl

theorem advanceCursor_withCounts (s : State) (w : Nat) (ls : Lines) :
    advanceCursor (s.withCounts w ls) = (advanceCursor s).withCounts w ls := by
  by_cases h : s.cursor + 1 = s.bodyLen
  · rw [advanceCursor_last h, advanceCursor_last (by exact h)]
    rfl
  · rw [advanceCursor_more h, advanceCursor_more (by exact h)]
    rfl

theorem dispatch_withCounts (kind : Byte) (payload : List Byte) (s : State) (w : Nat) (ls : Lines) :
    dispatch kind payload (s.withCounts w ls) = (dispatch kind payload s).withCounts w ls := by
  rw [dispatch_eq, dispatch_eq]
  rfl

theorem transition_withCounts (b : Byte) (now : Nat) (s : State) (w : Nat) (ls : Lines) :
    transition b now (s.withCounts w ls) = andThen (transition b now s) fun t => .next (t.withCounts w ls) := by
  have hphase : (s.withCounts w ls).phase = s.phase := rfl
  unfold transition
  rw [hphase]
  cases s.phase with
  | waitStart => exact congrArg Host.Outcome.next (waitStartByte_withCounts b s w ls)
  | readLenHigh => rfl
  | readLenLow =>
    exact congrArg Host.Outcome.next
      (boundCheck_withCounts { s with bodyLen := lenOf (lenHi s.bodyLen) b } w ls)
  | readBody =>
    dsimp only
    unfold bodyByte bufWrite
    by_cases hm : s.cfg.maxBody ≤ s.cursor.toNat
    · rw [if_pos hm, if_pos (by exact hm)]
      rfl
    · rw [if_neg hm, if_neg (by exact hm)]
      exact congrArg Host.Outcome.next (advanceCursor_withCounts { s with buf := s.buf.write s.cursor.toNat b } w ls)
  | readChecksum =>
    have hslice : ∀ a b, bufSlice (s.withCounts w ls) a b = bufSlice s a b := bufSlice_congr rfl rfl
    dsimp only
    unfold checksumByte acceptFrame
    rw [hslice]
    show onRead (bufSlice s 0 s.bodyLen.toNat) _ = _
    cases bufSlice s 0 s.bodyLen.toNat with
    | error f => rfl
    | ok body =>
      dsimp only [onRead]
      split
      · show onRead (bufRead s 0) _ = _
        cases bufRead s 0 with
        | error f => rfl
        | ok kind =>
          dsimp only [onRead]
          rw [hslice]
          show onRead (bufSlice s 1 s.bodyLen.toNat) _ = _
          cases bufSlice s 1 s.bodyLen.toNat with
          | error f => rfl
          | ok payload =>
            have h := dispatch_withCounts kind payload (markAlive now s) w ls
            exact congrArg (fun t : State => Host.Outcome.next { t with phase := .waitStart }) h
      · rfl

/-- A received byte sees neither the counter width nor the line records. -/
theorem rxByte_withCounts (b : Byte) (now : Nat) (s : State) (w : Nat) (ls : Lines) :
    rxByte b now (s.withCounts w ls) = andThen (rxByte b now s) fun t => .next (t.withCounts w ls) := by
  cases hi : s.inited with
  | false => rw [rxByte, rxByte, requireInit_false (by exact hi), requireInit_false hi, andThen_refused]
  | true =>
    cases hl : isLate now s with
    | true =>
      rw [rxByte_late (by exact hi) (by exact hl), rxByte_late hi hl, andThen_next]
      exact congrArg Host.Outcome.next
        (waitStartByte_withCounts b { takeDrop .idleTimeout s with tLastByte := now } w ls)
    | false =>
      rw [rxByte_onTime (by exact hi) (by exact hl), rxByte_onTime hi hl]
      exact transition_withCounts b now { s with tLastByte := now } w ls

/-- Received bytes see neither the counter width nor the line records. -/
theorem rxAll_withCounts (rx : List (Byte × Nat)) (s : State) (w : Nat) (ls : Lines) :
    rxAll rx (s.withCounts w ls) = andThen (rxAll rx s) fun t => .next (t.withCounts w ls) := by
  induction rx generalizing s with
  | nil => rfl
  | cons p rest ih =>
    rw [rxAll_cons, rxAll_cons, rxByte_withCounts, andThen_assoc, andThen_assoc]
    congr 1
    funext t
    exact ih t

/-! ### Answering alike -/

theorem sameOutcome_andThen {o o' : Out} {k k' : State → Out} (h : sameOutcome o o')
    (hk : ∀ t t', sameButForCounts t t' → sameOutcome (k t) (k' t')) : sameOutcome (andThen o k) (andThen o' k') := by
  cases o <;> cases o' <;> first | exact hk _ _ h.2 | exact h.elim | exact h

/-- Blocks that are the same but for counts hold the same effects. -/
theorem sameButForCounts_effects {s s' : State} (h : sameButForCounts s s') : s.effects = s'.effects := by
  rw [h.1]
  rfl

theorem sameOutcome_next {s s' : State} (h : sameButForCounts s s') : sameOutcome (.next s) (.next s') :=
  ⟨sameButForCounts_effects h, h⟩

end Sys2Proof.Laws
end

