-- ==== Sys2Proof/Laws/PerInstr.lean ====
section
/-! SUPPORT. One law per instruction: what the encoder puts on the port or on the wire selects the row that
spec/opcode_table.json gives the instruction (30_encoding.md R97, R110, R114). -/

open Sys2Proof

/-- What selects a row of the opcode table: an `op` code, the kind byte of a frame, or nothing. -/
inductive Sys2Proof.Laws.Select where
  | op (code : Nat)
  | kind (k : Byte)
  | noCode
  deriving DecidableEq, Repr

/-- The select of an input, read where the table says it stands: the `op` port, or byte 3 of bytes that begin with the
marker. -/
def Sys2Proof.Laws.Input.select (inp : Input) : Sys2Proof.Laws.Select :=
  match inp with
  | .port p => .op p.op.toNat
  | .frame (m :: _ :: _ :: k :: _) _ => if m = 0xAA then .kind k else .noCode
  | .frame _ _ => .noCode
  | .burst _ _ => .noCode
  | .cycle _ _ _ _ => .noCode
  | .xorfold _ => .noCode
  | .encode _ _ => .noCode
  | .connected => .noCode

/-- The select that the table gives each row; `UNKNOWN_KIND` has the kind byte it carries. -/
def Sys2Proof.Laws.rowSelect (c : Cfg) (i : Instr) : Sys2Proof.Laws.Select :=
  match i with
  | .nop => .op 0
  | .rxByte _ _ => .op 1
  | .sampleTick _ _ => .op 2
  | .sessionCheck _ => .op 3
  | .heartbeatCheck _ _ => .op 4
  | .sendButtonEvent _ _ => .op 5
  | .sendHeartbeat _ => .op 6
  | .init _ _ => .op 7
  | .displayText _ _ _ => .kind c.kDisplayText
  | .statusText _ _ _ => .kind c.kStatusText
  | .setLeds _ _ _ => .kind c.kSetLeds
  | .clearDisplay _ _ _ => .kind c.kClearDisplay
  | .setButtonLabels _ _ _ => .kind c.kSetButtonLabels
  | .buttonEvent _ _ _ => .kind c.kButtonEvent
  | .heartbeat _ _ _ => .kind c.kHeartbeat
  | .unknownKind _ k _ _ => .kind k
  | .xorfold _ => .noCode
  | .encode _ _ => .noCode
  | .bridgeConnected => .noCode
  | .rxs _ _ => .noCode
  | .pollCycle _ _ _ _ => .noCode

/-- The encoding of an instruction carries the select of its row, in every configuration. -/
def Sys2Proof.Laws.RowSelect.Statement (i : Instr) : Prop :=
  ∀ c : Cfg, Sys2Proof.Laws.Input.select (encode c i) = Sys2Proof.Laws.rowSelect c i

theorem Sys2Proof.Laws.RowSelect.nop : Sys2Proof.Laws.RowSelect.Statement .nop := fun _ => rfl

theorem Sys2Proof.Laws.RowSelect.rxByte (b : Byte) (now : Nat) :
    Sys2Proof.Laws.RowSelect.Statement (.rxByte b now) := fun _ => rfl

theorem Sys2Proof.Laws.RowSelect.sampleTick (levels : BitVec 4) (now : Nat) :
    Sys2Proof.Laws.RowSelect.Statement (.sampleTick levels now) := fun _ => rfl

theorem Sys2Proof.Laws.RowSelect.sessionCheck (now : Nat) :
    Sys2Proof.Laws.RowSelect.Statement (.sessionCheck now) := fun _ => rfl

theorem Sys2Proof.Laws.RowSelect.heartbeatCheck (now : Nat) (status : Byte) :
    Sys2Proof.Laws.RowSelect.Statement (.heartbeatCheck now status) := fun _ => rfl

theorem Sys2Proof.Laws.RowSelect.sendButtonEvent (index : Fin 4) (pressed : Bool) :
    Sys2Proof.Laws.RowSelect.Statement (.sendButtonEvent index pressed) := fun _ => rfl

theorem Sys2Proof.Laws.RowSelect.sendHeartbeat (status : Byte) :
    Sys2Proof.Laws.RowSelect.Statement (.sendHeartbeat status) := fun _ => rfl

theorem Sys2Proof.Laws.RowSelect.init (levels : BitVec 4) (now : Nat) :
    Sys2Proof.Laws.RowSelect.Statement (.init levels now) := fun _ => rfl

theorem Sys2Proof.Laws.RowSelect.displayText (len : BitVec 16) (tail : List Byte) (now : Nat) :
    Sys2Proof.Laws.RowSelect.Statement (.displayText len tail now) := fun _ => rfl

theorem Sys2Proof.Laws.RowSelect.statusText (len : BitVec 16) (tail : List Byte) (now : Nat) :
    Sys2Proof.Laws.RowSelect.Statement (.statusText len tail now) := fun _ => rfl

theorem Sys2Proof.Laws.RowSelect.setLeds (len : BitVec 16) (tail : List Byte) (now : Nat) :
    Sys2Proof.Laws.RowSelect.Statement (.setLeds len tail now) := fun _ => rfl

theorem Sys2Proof.Laws.RowSelect.clearDisplay (len : BitVec 16) (tail : List Byte) (now : Nat) :
    Sys2Proof.Laws.RowSelect.Statement (.clearDisplay len tail now) := fun _ => rfl

theorem Sys2Proof.Laws.RowSelect.setButtonLabels (len : BitVec 16) (tail : List Byte) (now : Nat) :
    Sys2Proof.Laws.RowSelect.Statement (.setButtonLabels len tail now) := fun _ => rfl

theorem Sys2Proof.Laws.RowSelect.buttonEvent (len : BitVec 16) (tail : List Byte) (now : Nat) :
    Sys2Proof.Laws.RowSelect.Statement (.buttonEvent len tail now) := fun _ => rfl

theorem Sys2Proof.Laws.RowSelect.heartbeat (len : BitVec 16) (tail : List Byte) (now : Nat) :
    Sys2Proof.Laws.RowSelect.Statement (.heartbeat len tail now) := fun _ => rfl

theorem Sys2Proof.Laws.RowSelect.unknownKind (len : BitVec 16) (kind : Byte) (tail : List Byte) (now : Nat) :
    Sys2Proof.Laws.RowSelect.Statement (.unknownKind len kind tail now) := fun _ => rfl

theorem Sys2Proof.Laws.RowSelect.xorfold (bs : List Byte) :
    Sys2Proof.Laws.RowSelect.Statement (.xorfold bs) := fun _ => rfl

theorem Sys2Proof.Laws.RowSelect.encode (kind : Byte) (payload : List Byte) :
    Sys2Proof.Laws.RowSelect.Statement (.encode kind payload) := fun _ => rfl

theorem Sys2Proof.Laws.RowSelect.bridgeConnected : Sys2Proof.Laws.RowSelect.Statement .bridgeConnected := fun _ => rfl

theorem Sys2Proof.Laws.RowSelect.rxs (bs : List Byte) (now : Nat) :
    Sys2Proof.Laws.RowSelect.Statement (.rxs bs now) := fun _ => rfl

theorem Sys2Proof.Laws.RowSelect.pollCycle (rx : List (Byte × Nat)) (tick : Option (BitVec 4 × Nat))
    (silence : Option Nat) (beat : Option (Nat × Byte)) :
    Sys2Proof.Laws.RowSelect.Statement (.pollCycle rx tick silence beat) := fun _ => rfl
end

