-- ==== Sys2Proof/Tests/Slice0.lean ====
section
/-! SUPPORT. Tests. The expected values are those of spec/95_test_vectors.md (the vector is named at each test) or
written out from the encodings of 30_encoding.md. The witness theorems at the end show, for each obligation with
hypotheses, a concrete input that meets them, one for each clause at a boundary value. -/

open Sys2Proof Sys2Proof.Machine

namespace Sys2Proof.Tests

/-! ### Helpers -/

/-- The operation answers a next state with this property. -/
def nextIs (o : Out) (p : State → Bool) : Bool :=
  match o with
  | .next t => p t
  | .fault _ => false
  | .refused _ => false

/-- The operation is refused for this reason. -/
def refusedAs (o : Out) (r : Refusal) : Bool :=
  match o with
  | .next _ => false
  | .fault _ => false
  | .refused r' => decide (r' = r)

/-- The start state of the vectors: `INIT levels=0b1111 @0` after power-on. -/
def ready0 : State := initialised 0b1111 0 State.reset

/-- A frame in progress: `AA 00 len` and the body bytes so far arrived at time `t`. -/
def inBody (len : BitVec 16) (body : List Byte) (t : Nat) : State :=
  { ready0 with
    phase := .readBody, bodyLen := len, cursor := BitVec.ofNat 16 body.length,
    buf := (List.range body.length).zip body, tLastByte := t }

/-- A frame whose whole body has arrived at time `t`. -/
def atChecksum (body : List Byte) (t : Nat) : State :=
  { inBody (BitVec.ofNat 16 body.length) body t with phase := .readChecksum }

/-- A length in progress, with the register as it stands. -/
def inLength (ph : Phase) (len : BitVec 16) (t : Nat) : State :=
  { ready0 with phase := ph, bodyLen := len, tLastByte := t }

/-- The session connected by a valid frame at time `t`. -/
def alive (t : Nat) : State := { ready0 with connected := true, tLastValid := t, tLastByte := t }

/-- Line 0 of an active-low board. -/
def line (cand reported : Bool) (cnt tRep : Nat) : ButtonLine :=
  { activeLow := true, cand := cand, reported := reported, cnt := cnt, tRep := tRep }

def withLine0 (L : ButtonLine) (s : State) : State := { s with lines := s.lines.set 0 L }

def freezing (s : State) : State := { s with cfg := { s.cfg with quietMode := .freeze } }

/-! ### WellFormed refuses an ill-formed term at every check -/

theorem test_wellFormed_accepts :
    (Instr.displayText 3 [0x48, 0x69, 0x20] 4294967295).wellFormed Cfg.ref = true := by decide

theorem test_wellFormed_time_of_ports :
    [Instr.rxByte 0xAA 4294967296, .sampleTick 0 4294967296, .sessionCheck 4294967296,
      .heartbeatCheck 4294967296 0, .init 0 4294967296, .rxs [] 4294967296].any (·.wellFormed Cfg.ref) = false := by decide

theorem test_wellFormed_time_of_frames :
    [Instr.displayText 1 [1] 4294967296, .statusText 1 [2] 4294967296, .setLeds 1 [3] 4294967296,
      .clearDisplay 1 [4] 4294967296, .setButtonLabels 1 [5] 4294967296, .buttonEvent 1 [0x10] 4294967296,
      .heartbeat 1 [0x11] 4294967296, .unknownKind 1 0x7F [0x7F] 4294967296].any (·.wellFormed Cfg.ref) = false := by
  decide

theorem test_wellFormed_frame_tail :
    [Instr.displayText 3 [0x48, 0x69] 0, .statusText 1 [] 0, .setLeds 1 [3, 3] 0, .clearDisplay 0 [4] 0,
      .setButtonLabels 1 [] 0, .buttonEvent 3 [0, 1] 0, .heartbeat 2 [1] 0,
      .unknownKind 1 0x7F [] 0].any (·.wellFormed Cfg.ref) = false := by decide

theorem test_wellFormed_unknownKind_is_unknown :
    (Instr.unknownKind 1 0x04 [0x04] 0).wellFormed Cfg.ref = false := by decide

theorem test_wellFormed_encode_domain :
    (Instr.encode 1 (List.replicate 65535 0)).wellFormed Cfg.ref = false ∧
      (Instr.encode 1 (List.replicate 65534 0)).wellFormed Cfg.ref = true := by
  simp only [Instr.wellFormed, List.length_replicate]
  decide

theorem test_wellFormed_pollCycle :
    [Instr.pollCycle [(0, 4294967296)] none none none, .pollCycle [] (some (0, 4294967296)) none none,
      .pollCycle [] none (some 4294967296) none,
      .pollCycle [] none none (some (4294967296, 0))].any (·.wellFormed Cfg.ref) = false := by decide

/-! ### Decode: every constructor, from words written out from 30_encoding.md -/

/-- Operand ports with nothing zero, so that a swapped port shows. -/
def ports (op : BitVec 3) : PortSample :=
  { op := op, now := 777, rxByte := 0xA5, levels := 0b1011, hbStatus := 0x5A, btnIndex := 0b10, btnPressed := true }

theorem test_decode_nop : decode Cfg.ref (.port (ports 0b000)) = .nop := by decide
theorem test_decode_rxByte : decode Cfg.ref (.port (ports 0b001)) = .rxByte 0xA5 777 := by decide
theorem test_decode_sampleTick : decode Cfg.ref (.port (ports 0b010)) = .sampleTick 0b1011 777 := by decide
theorem test_decode_sessionCheck : decode Cfg.ref (.port (ports 0b011)) = .sessionCheck 777 := by decide
theorem test_decode_heartbeatCheck : decode Cfg.ref (.port (ports 0b100)) = .heartbeatCheck 777 0x5A := by decide
theorem test_decode_sendButtonEvent : decode Cfg.ref (.port (ports 0b101)) = .sendButtonEvent 2 true := by decide
theorem test_decode_sendHeartbeat : decode Cfg.ref (.port (ports 0b110)) = .sendHeartbeat 0x5A := by decide
theorem test_decode_init : decode Cfg.ref (.port (ports 0b111)) = .init 0b1011 777 := by decide

theorem test_decode_displayText :
    decode Cfg.ref (.frame [0b10101010, 0b00000000, 0b00000011, 0b00000001, 0x48, 0x69, 0x20] 9) =
      .displayText 3 [0x48, 0x69, 0x20] 9 := by decide
theorem test_decode_statusText :
    decode Cfg.ref (.frame [0b10101010, 0b00000000, 0b00000011, 0b00000010, 0x4F, 0x4B, 0x06] 9) =
      .statusText 3 [0x4F, 0x4B, 0x06] 9 := by decide
theorem test_decode_setLeds :
    decode Cfg.ref (.frame [0b10101010, 0b00000000, 0b00000001, 0b00000011, 0x03] 9) = .setLeds 1 [0x03] 9 := by decide
theorem test_decode_clearDisplay :
    decode Cfg.ref (.frame [0b10101010, 0b00000000, 0b00000001, 0b00000100, 0x04] 9) = .clearDisplay 1 [0x04] 9 := by
  decide
theorem test_decode_setButtonLabels :
    decode Cfg.ref (.frame [0b10101010, 0b00000000, 0b00000001, 0b00000101, 0x05] 9) =
      .setButtonLabels 1 [0x05] 9 := by decide
theorem test_decode_buttonEvent :
    decode Cfg.ref (.frame [0b10101010, 0b00000000, 0b00000011, 0b00010000, 0x02, 0x01, 0x13] 9) =
      .buttonEvent 3 [0x02, 0x01, 0x13] 9 := by decide
theorem test_decode_heartbeat :
    decode Cfg.ref (.frame [0b10101010, 0b00000000, 0b00000010, 0b00010001, 0x5A, 0x4B] 9) =
      .heartbeat 2 [0x5A, 0x4B] 9 := by decide
theorem test_decode_unknownKind :
    decode Cfg.ref (.frame [0b10101010, 0b00000000, 0b00000010, 0b01111111, 0xAA, 0xD5] 9) =
      .unknownKind 2 0x7F [0xAA, 0xD5] 9 := by decide

/-- FUNCTION, QUERY and PSEUDO rows have no select code (R111, R113, R114). -/
theorem test_decode_rows_without_code :
    decode Cfg.ref (.xorfold [1, 2]) = .xorfold [1, 2] ∧ decode Cfg.ref (.encode 1 [2]) = .encode 1 [2] ∧
      decode Cfg.ref .connected = .bridgeConnected ∧ decode Cfg.ref (.burst [1, 2] 3) = .rxs [1, 2] 3 ∧
      decode Cfg.ref (.cycle [(1, 2)] (some (3, 4)) (some 5) (some (6, 7))) =
        .pollCycle [(1, 2)] (some (3, 4)) (some 5) (some (6, 7)) := by decide

/-- The decoder of frames rejects by name (R90, R108), and leaves the bytes after a frame. -/
theorem test_decodeFrame_rejects :
    decodeFrame Cfg.ref [] 0 = .error .empty ∧
      decodeFrame Cfg.ref [0x55, 0x00, 0x01, 0x04, 0x04] 0 = .error .noMarker ∧
      decodeFrame Cfg.ref [0xAA, 0x00, 0x01] 0 = .error .truncated ∧
      decodeFrame Cfg.ref [0xAA, 0x00, 0x03, 0x01, 0x48, 0x69] 0 = .error .truncated ∧
      decodeFrame Cfg.ref [0xAA, 0x00, 0x01, 0x04, 0x04, 0xAA] 0 = .ok (.clearDisplay 1 [0x04] 0, [0xAA]) := by decide

/-- Bytes that are no frame are received all the same (log 12). -/
theorem test_decode_no_frame : decode Cfg.ref (.frame [0x00, 0xAA] 5) = .rxs [0x00, 0xAA] 5 := by decide

/-- R94's examples: `L = 1` is `00 01`, `L = 0x0123` (291) is `01 23`. -/
theorem test_lenOf : lenOf 0x00 0x01 = 1 ∧ lenOf 0x01 0x23 = 291 ∧ lenHi 291 = 0x01 ∧ lenLo 291 = 0x23 := by decide

/-- The table's words (R114): the op port in bits 2:0, a header with the marker in bits 31:24. -/
theorem test_decodeTableWord :
    decodeTableWord 8 0 = some .nop ∧ decodeTableWord 8 2 = some (.sampleTick 0 0) ∧ decodeTableWord 8 8 = none ∧
      decodeTableWord 32 0xAA000103 = some (.setLeds 1 [0] 0) ∧
      decodeTableWord 32 0xAA000004 = some (.clearDisplay 0 [] 0) ∧
      decodeTableWord 24 0x00017F = some (.unknownKind 1 0x7F [0] 0) ∧ decodeTableWord 32 0xAB000104 = none ∧
      decodeTableWord 16 1 = none := by decide

/-! ### The step -/

/-- A word placed for the fetch is the next instruction, and runs first after reset. -/
theorem test_step_runs_the_word :
    nextIs (step (State.reset.withFetchWord 8 7)) (fun t => t.inited && decide (t.pending = [])) = true := by decide

theorem test_step_idle_port_is_nop : nextIs (step ready0) (fun t => decide (t = ready0)) = true := by decide

/-! ### Meanings, one step each -/

/-- V-Y3. -/
theorem test_nop : nextIs (exec .nop ready0) (fun t => decide (t = ready0)) = true := by decide

/-- V-P10: elapsed 500 is not more than 500, the marker value is data. -/
theorem test_rxByte_marker_is_data :
    nextIs (exec (.rxByte 0xAA 1500) (inBody 3 [0x01] 1000)) (fun t => decide (t.phase = .readBody ∧ t.cursor = 2 ∧
      t.buf.read 1 = some 0xAA ∧ t.tLastByte = 1500 ∧ t.drops = [])) = true := by decide

/-- V-P12: two drops in one step, the length register stays. -/
theorem test_rxByte_late_not_marker :
    nextIs (exec (.rxByte 0x07 1501) (inLength .readLenLow 0 1000)) (fun t => decide (t.phase = .waitStart ∧
      t.drops = [.idleTimeout, .badStart] ∧ t.bodyLen = 0)) = true := by decide

/-- V-B4: two lines of different polarity report in one tick, line 0 first. -/
theorem test_sampleTick_two_lines :
    nextIs (exec (.sampleTick 0b1110 30) { ready0 with lines :=
        ⟨line true false 2 4294967246, line false false 3 4294967246,
          { line true false 2 4294967246 with activeLow := false }, line false false 3 4294967246⟩ })
      (fun t => decide (t.effects = [.tx [0xAA, 0x00, 0x03, 0x10, 0x00, 0x01, 0x11],
          .tx [0xAA, 0x00, 0x03, 0x10, 0x02, 0x01, 0x13]] ∧
        t.lines.line0 = line true true 3 30 ∧ t.lines.line1.cnt = 4)) = true := by decide

/-- V-B1 at `@80`: `GATE` reports the held release, `FREEZE` starts the count again. -/
theorem test_sampleTick_gate_and_freeze :
    nextIs (exec (.sampleTick 0b1111 80) (withLine0 (line false true 3 30) ready0)) (fun t =>
        decide (t.lines.line0 = line false false 4 80 ∧
          t.effects = [.tx [0xAA, 0x00, 0x03, 0x10, 0x00, 0x00, 0x10]])) = true ∧
      nextIs (exec (.sampleTick 0b1111 80) (freezing (withLine0 (line true true 3 30) ready0))) (fun t =>
        decide (t.lines.line0 = line false true 1 30 ∧ t.effects = [])) = true := by decide

/-- V-S1: at exactly `SILENCE_MS` the session stays connected. -/
theorem test_sessionCheck_boundary :
    nextIs (exec (.sessionCheck 15020) (alive 20)) (fun t => t.connected && t.effects.isEmpty) = true := by decide

/-- V-S1: one millisecond later it does not, with one notification. -/
theorem test_sessionCheck_disconnects :
    nextIs (exec (.sessionCheck 15021) (alive 20)) (fun t =>
      decide (t.connected = false ∧ t.effects = [.bridgeDisconnected] ∧ t.tLastValid = 20)) = true := by decide

/-- V-D23: nothing at 4999. -/
theorem test_heartbeatCheck_early :
    nextIs (exec (.heartbeatCheck 4999 0x5A) ready0) (fun t => decide (t = ready0)) = true := by decide

/-- V-D23: due at 5000, the timer restarts from `now`. -/
theorem test_heartbeatCheck_due :
    nextIs (exec (.heartbeatCheck 5000 0x5A) ready0) (fun t => decide (t.tLastHb = 5000 ∧
      t.effects = [.tx [0xAA, 0x00, 0x02, 0x11, 0x5A, 0x4B]])) = true := by decide

/-- V-Y1: a direct send needs no `INIT`. -/
theorem test_sendButtonEvent :
    nextIs (exec (.sendButtonEvent 1 true) State.reset) (fun t => decide
      (t.effects = [.tx [0xAA, 0x00, 0x03, 0x10, 0x01, 0x01, 0x10]] ∧ t.inited = false)) = true := by decide

/-- V-Y1. -/
theorem test_sendHeartbeat :
    nextIs (exec (.sendHeartbeat 0x00) State.reset) (fun t => decide
      (t.tx = [0xAA, 0x00, 0x02, 0x11, 0x00, 0x11] ∧ t.tLastHb = 0)) = true := by decide

/-- R201: `INIT(0b1011, 0)` makes line 2 active-high; every `t_rep` is `2^32 - 50`. -/
theorem test_init_calibrates :
    nextIs (exec (.init 0b1011 0) State.reset) (fun t => decide
      (t.inited = true ∧ t.lines.line2 = { line false false 1 4294967246 with activeLow := false } ∧
        t.lines.line3 = line false false 1 4294967246)) = true := by decide

/-- V-Y2: a second `INIT` in mid-frame is silent and keeps BUF. -/
theorem test_init_again :
    nextIs (exec (.init 0b1110 100) { inBody 3 [0x02] 20 with connected := true }) (fun t => decide
      (t.phase = .waitStart ∧ t.cursor = 0 ∧ t.bodyLen = 0 ∧ t.connected = false ∧ t.effects = [] ∧ t.drops = [] ∧
        t.tLastHb = 100 ∧ t.lines.line0 = { line false false 1 50 with activeLow := false } ∧
        t.buf.read 0 = some 0x02)) = true := by decide

/-- V-D2. -/
theorem test_displayText :
    nextIs (exec (.displayText 3 [0x48, 0x69, 0x20] 1) ready0) (fun t => decide
      (t.effects = [.displayText [0x48, 0x69]] ∧ t.connected = true ∧ t.tLastValid = 1 ∧ t.drops = [])) = true := by
  decide

/-- V-P9: one payload bit flipped. -/
theorem test_displayText_corrupted :
    nextIs (exec (.displayText 3 [0x49, 0x69, 0x20] 1) ready0) (fun t => decide
      (t.effects = [] ∧ t.connected = false ∧ t.drops = [.badChecksum])) = true := by decide

/-- V-D4: the bytes pass through unchanged. -/
theorem test_statusText :
    nextIs (exec (.statusText 3 [0x00, 0xAA, 0xA8] 1) ready0) (fun t => decide
      (t.effects = [.statusText [0x00, 0xAA]] ∧ t.drops = [])) = true := by decide

/-- V-D8: two trailing bytes are ignored. -/
theorem test_setLeds :
    nextIs (exec (.setLeds 7 [0x00, 0xFF, 0x00, 0x00, 0x01, 0x00, 0xFD] 1) ready0) (fun t => decide
      (t.effects = [.setLeds [⟨0x00, 0xFF, 0x00, 0x00⟩]] ∧ t.drops = [])) = true := by decide

/-- V-D6: an incomplete quadruple alone still gives the action. -/
theorem test_setLeds_empty :
    nextIs (exec (.setLeds 4 [0x00, 0x01, 0x02, 0x00] 1) ready0) (fun t => decide
      (t.effects = [.setLeds []] ∧ t.connected = true)) = true := by decide

/-- V-D12: the payload is ignored. -/
theorem test_clearDisplay :
    nextIs (exec (.clearDisplay 3 [0xDE, 0xAD, 0x77] 1) ready0) (fun t => decide
      (t.effects = [.clearDisplay] ∧ t.drops = [])) = true := by decide

/-- V-P6 with the kind byte after it: `L = 0` fails the frame at its header. -/
theorem test_clearDisplay_lenZero :
    nextIs (exec (.clearDisplay 0 [] 1) ready0) (fun t => decide
      (t.effects = [] ∧ t.drops = [.lenZero, .badStart] ∧ t.connected = false)) = true := by decide

/-- V-D15: the fifth piece is dropped. -/
theorem test_setButtonLabels :
    nextIs (exec (.setButtonLabels 10 [0x41, 0x00, 0x42, 0x00, 0x43, 0x00, 0x44, 0x00, 0x45, 0x44] 1) ready0)
      (fun t => decide (t.effects = [.setButtonLabels ⟨[0x41], [0x42], [0x43], [0x44]⟩] ∧ t.drops = [])) = true := by
  decide

/-- V-D17: two pieces only, no action, the session is alive. -/
theorem test_setButtonLabels_none :
    nextIs (exec (.setButtonLabels 4 [0x41, 0x00, 0x42, 0x06] 1) ready0) (fun t => decide
      (t.effects = [] ∧ t.connected = true ∧ t.drops = [])) = true := by decide

/-- V-D21. -/
theorem test_buttonEvent :
    nextIs (exec (.buttonEvent 3 [0x02, 0x01, 0x13] 1) ready0) (fun t => decide
      (t.effects = [] ∧ t.connected = true ∧ t.drops = [])) = true := by decide

/-- V-D22. -/
theorem test_heartbeat :
    nextIs (exec (.heartbeat 2 [0x5A, 0x4B] 1) ready0) (fun t => decide
      (t.effects = [] ∧ t.connected = true ∧ t.drops = [])) = true := by decide

/-- V-D19. -/
theorem test_unknownKind :
    nextIs (exec (.unknownKind 3 0x7F [0xAA, 0xAA, 0x7F] 1) ready0) (fun t => decide
      (t.effects = [] ∧ t.connected = true ∧ t.tLastValid = 1 ∧ t.drops = [])) = true := by decide

/-- V-C1, V-C2. -/
theorem test_xorfold :
    nextIs (exec (.xorfold [0x01, 0x48, 0x69]) State.reset) (fun t => decide (t.result = some (.byte 0x20))) = true ∧
      nextIs (exec (.xorfold []) State.reset) (fun t => decide (t.result = some (.byte 0x00))) = true := by decide

/-- V-C6: the marker value is not escaped. -/
theorem test_encode :
    nextIs (exec (.encode 0xAA [0xAA]) State.reset) (fun t => decide
      (t.result = some (.bytes [0xAA, 0x00, 0x02, 0xAA, 0xAA, 0x00]))) = true := by decide

/-- V-C13: `L = 256` is sent high byte first. -/
theorem test_encode_high_byte : (frameOf 0x01 (List.replicate 255 0x00)).take 4 = [0xAA, 0x01, 0x00, 0x01] := by
  rw [frameOf, wireBytes, List.length_replicate]
  rfl

/-- P1: `BRIDGE_CONNECTED` read after lines 1 and 8. -/
theorem test_bridgeConnected :
    nextIs (exec .bridgeConnected ready0) (fun t => decide (t.result = some (.bit false))) = true ∧
      nextIs (exec .bridgeConnected (alive 100)) (fun t => decide (t.result = some (.bit true))) = true := by decide

/-- V-P15: two frames back to back. -/
theorem test_rxs_two_frames :
    nextIs (exec (.rxs [0xAA, 0x00, 0x01, 0x04, 0x04, 0xAA, 0x00, 0x03, 0x02, 0x4F, 0x4B, 0x06] 1) ready0) (fun t =>
      decide (t.effects = [.clearDisplay, .statusText [0x4F, 0x4B]] ∧ t.drops = [])) = true := by decide

/-- V-P4: oversize by one; no byte of BUF is written. -/
theorem test_rxs_oversize :
    nextIs (exec (.rxs [0xAA, 0x00, 0x41] 1) ready0) (fun t => decide (t.drops = [.lenOversize] ∧
      t.phase = .waitStart ∧ t.cursor = 0 ∧ t.bodyLen = 65 ∧ t.buf = [])) = true := by decide

/-- P3, lines 5 to 8, as one cycle. -/
theorem test_pollCycle :
    nextIs (exec (.pollCycle ([0xAA, 0x00, 0x05, 0x03, 0x01, 0x00, 0x00, 0xFF, 0xFD].map fun b => (b, 20))
        (some (0b1101, 20)) (some 20) (some (20, 0x01)))
        { ready0 with lines := ready0.lines.set 1 (line true false 1 4294967246) }) (fun t => decide
      (t.effects = [.setLeds [⟨0x01, 0x00, 0x00, 0xFF⟩]] ∧ t.connected = true ∧ t.tLastValid = 20 ∧
        t.lines.line1.cnt = 2 ∧ t.tLastHb = 0)) = true := by decide

/-- R253: the disconnect notification precedes the heartbeat's frame. -/
theorem test_pollCycle_order :
    nextIs (exec (.pollCycle [] none (some 15021) (some (15021, 0x01))) (alive 20)) (fun t => decide
      (t.effects = [.bridgeDisconnected, .tx [0xAA, 0x00, 0x02, 0x11, 0x01, 0x10]])) = true := by decide

/-- V-Y1: the four operations are refused before `INIT`. -/
theorem test_before_init :
    [Instr.rxByte 0xAA 0, .sampleTick 0b1111 0, .sessionCheck 0, .heartbeatCheck 0 0x00].all
      (fun i => refusedAs (exec i State.reset) .notInitialised) = true := by decide

/-- R27, U9: the codes of `phase`; the spare ones are `WaitStart`. -/
theorem test_phase_codes :
    [Phase.waitStart, .readLenHigh, .readLenLow, .readBody, .readChecksum].map Phase.code = [0, 1, 2, 3, 4] ∧
      ([0, 1, 2, 3, 4, 5, 6, 7] : List (BitVec 3)).map Phase.ofCode =
        [.waitStart, .readLenHigh, .readLenLow, .readBody, .readChecksum, .waitStart, .waitStart, .waitStart] := by
  decide

/-- R240: the codes of the drop causes. -/
theorem test_drop_codes :
    [Drop.badStart, .lenOversize, .lenZero, .badChecksum, .idleTimeout].map Drop.code = [1, 2, 3, 4, 5] := by decide

/-! ### Witnesses: inputs that meet the hypotheses of the obligations

A witness is named after its obligation. The states stand at the boundary values of the rules: a gap of exactly
`IDLE_TIMEOUT_MS` (500) or one more, a body of exactly `MAX_BODY` (64) bytes, a frame that finds the parser waiting and
one that comes late. -/

theorem legal_ref : Cfg.ref.Legal := by decide

theorem ready0_inv : ready0.Inv where
  legal := legal_ref
  parser := trivial
  buf := ⟨List.Pairwise.nil, fun _ h => nomatch h⟩
  times := by unfold State.timesInv; decide
  lines := fun i => match i with
    | 0 | 1 | 2 | 3 => by unfold ButtonLine.inv; decide
  power := fun h => nomatch h

/-- A body in progress meets the invariant: two of three bytes have arrived. -/
theorem inBody_inv : (inBody 3 [0x01, 0x48] 1000).Inv where
  legal := legal_ref
  parser := by
    show _ ∧ _ ∧ State.holdsBytes _ _
    unfold State.holdsBytes
    decide
  buf := by unfold State.bufInv; decide
  times := by unfold State.timesInv; decide
  lines := ready0_inv.lines
  power := fun h => nomatch h

/-- A whole body meets the invariant. -/
theorem atChecksum_inv : (atChecksum [0x04] 1000).Inv where
  legal := legal_ref
  parser := by
    show _ ∧ _ ∧ State.holdsBytes _ _
    unfold State.holdsBytes
    decide
  buf := by unfold State.bufInv; decide
  times := by unfold State.timesInv; decide
  lines := ready0_inv.lines
  power := fun h => nomatch h

theorem witness_OperationsBeforeInitAreRefused : State.reset.inited = false := by decide

theorem witness_LengthIsBigEndian : (0 < 8 ∧ 7 < 8) ∧ (lenOf 0x80 0x01).getLsbD (8 + 7) = true := by decide

theorem witness_XorFoldAnswersTheFold : [0x01#8, 0x48#8].Perm [0x48, 0x01] := List.Perm.swap _ _ _

theorem witness_EncodeAnswersTheFrame : (List.replicate 65534 0x00#8).length ≤ 65534 := List.length_replicate.le

theorem witness_EncodeBeyondItsDomainIsRefused : 65534 < (List.replicate 65535 0x00#8).length :=
  List.length_replicate.symm.le

theorem witness_WaitStartHuntsTheMarker :
    ready0.inited = true ∧ ready0.phase = .waitStart ∧ (0xAA : Byte) = 0xAA ∧ (0x00 : Byte) ≠ 0xAA := by decide

theorem witness_LateByteDropsTheFrameAndHunts :
    (∃ s : State, s.inited = true ∧ s.phase ≠ .waitStart ∧ s.cfg.idleTimeoutMs < elapsed s.cfg 1501 s.tLastByte) ∧
      ∃ t, exec (.rxByte 0xAA 1500) (inBody 3 [0x01] 1000) = .next t :=
  ⟨⟨inBody 3 [0x01] 1000, by decide⟩, _, rfl⟩

theorem witness_LengthHighByteIsStored :
    ∃ s : State, s.inited = true ∧ s.phase = .readLenHigh ∧ elapsed s.cfg 1500 s.tLastByte ≤ s.cfg.idleTimeoutMs :=
  ⟨inLength .readLenHigh 0 1000, by decide⟩

/-- One above `MAX_BODY`, `MAX_BODY`, one and zero. -/
theorem witness_LengthLowByteIsBoundChecked :
    ∃ s : State, (s.inited = true ∧ s.phase = .readLenLow ∧
      elapsed s.cfg 1500 s.tLastByte ≤ s.cfg.idleTimeoutMs) ∧
      ∀ p ∈ [(65, 0x41#8), (64, 0x40#8), (1, 0x01#8), (0, 0x00#8)], p.1 = s.bodyLen.toNat / 256 * 256 + p.2.toNat :=
  ⟨inLength .readLenLow 0 1000, by decide⟩

/-- The byte that completes the body and one that does not. -/
theorem witness_BodyByteIsStoredAtTheCursor :
    ∀ s ∈ [inBody 3 [0x01, 0x48] 1000, inBody 3 [0x01] 1000, inBody 64 [] 1000],
      s.inited = true ∧ s.phase = .readBody ∧ elapsed s.cfg 1500 s.tLastByte ≤ s.cfg.idleTimeoutMs ∧
        s.cursor.toNat < s.bodyLen.toNat ∧ s.bodyLen.toNat ≤ s.cfg.maxBody := by decide

/-- A cursor at `MAX_BODY`. -/
theorem witness_AccessesOutsideBufFault_store :
    ∃ s : State, s.inited = true ∧ elapsed s.cfg 1500 s.tLastByte ≤ s.cfg.idleTimeoutMs ∧ s.phase = .readBody ∧
      s.cfg.maxBody ≤ s.cursor.toNat :=
  ⟨{ inBody 65 [] 1000 with cursor := 64 }, by decide⟩

/-- A body whose second byte holds no value. -/
theorem witness_AccessesOutsideBufFault_noValue :
    ∃ s : State, s.inited = true ∧ elapsed s.cfg 1500 s.tLastByte ≤ s.cfg.idleTimeoutMs ∧ s.phase = .readChecksum ∧
      1 < s.bodyLen.toNat ∧ (∀ j, j < 1 → (s.buf.read j).isSome) ∧ 1 < s.cfg.maxBody ∧ s.buf.read 1 = none :=
  ⟨{ atChecksum [0x01] 1000 with bodyLen := 2 }, by decide⟩

/-- A body that is longer than a BUF of one byte. -/
theorem witness_AccessesOutsideBufFault_noIndex :
    ∃ s : State, s.inited = true ∧ elapsed s.cfg 1500 s.tLastByte ≤ s.cfg.idleTimeoutMs ∧ s.phase = .readChecksum ∧
      1 < s.bodyLen.toNat ∧ (∀ j, j < 1 → (s.buf.read j).isSome) ∧ 1 = s.cfg.maxBody :=
  ⟨{ atChecksum [0x01] 1000 with bodyLen := 2, cfg := { Cfg.ref with maxBody := 1 } }, by decide⟩

theorem witness_MatchingChecksumAcceptsTheFrame :
    ∃ s : State, s.inited = true ∧ s.phase = .readChecksum ∧
      elapsed s.cfg 1500 s.tLastByte ≤ s.cfg.idleTimeoutMs ∧ s.bodyLen.toNat ≤ s.cfg.maxBody ∧
      s.bodyLen.toNat = [0x01#8, 0x48, 0x69].length ∧
      (∀ j (h : j < [0x01#8, 0x48, 0x69].length), s.buf.read j = some [0x01#8, 0x48, 0x69][j]) ∧
      (0x20 : Byte) = xorFold [0x01, 0x48, 0x69] :=
  ⟨atChecksum [0x01, 0x48, 0x69] 1000, by decide⟩

theorem witness_WrongChecksumDropsTheFrame :
    ∃ s : State, s.inited = true ∧ s.phase = .readChecksum ∧
      elapsed s.cfg 1500 s.tLastByte ≤ s.cfg.idleTimeoutMs ∧ s.bodyLen.toNat ≤ s.cfg.maxBody ∧
      s.bodyLen.toNat = [0x04#8].length ∧ (∀ j (h : j < [0x04#8].length), s.buf.read j = some [0x04#8][j]) ∧
      (0xAA : Byte) ≠ xorFold [0x04] :=
  ⟨atChecksum [0x04] 1000, by decide⟩

theorem witness_ReceivingAByteAlwaysAnswers :
    ((inBody 3 [0x01, 0x48] 1000).Inv ∧ (inBody 3 [0x01, 0x48] 1000).inited = true) ∧
      (atChecksum [0x04] 1000).Inv ∧ (atChecksum [0x04] 1000).inited = true :=
  ⟨⟨inBody_inv, rfl⟩, atChecksum_inv, rfl⟩

/-- A burst that answers, and the first index beyond BUF. -/
theorem witness_NoReceivedByteIsStoredBeyondBuf :
    ∃ t, exec (.rxs [0x48, 0x69] 1000) (inBody 3 [0x01] 1000) = .next t ∧
      (inBody 3 [0x01] 1000).cfg.maxBody ≤ 64 := ⟨_, rfl, by decide⟩

theorem witness_AByteReportsAtMostTwoDrops :
    ∃ t, exec (.rxByte 0x07 1501) (inLength .readLenLow 0 1000) = .next t := ⟨_, rfl⟩

theorem witness_BurstsFramesAndCyclesAlwaysAnswer :
    (inBody 3 [0x01, 0x48] 1000).Inv ∧ (inBody 3 [0x01, 0x48] 1000).inited = true := ⟨inBody_inv, rfl⟩

theorem witness_ReceivingKeepsTheOtherParts :
    (receivesOnly (.rxByte 0x69 1000) = true ∧ ∃ t, exec (.rxByte 0x69 1000) (inBody 3 [0x01, 0x48] 1000) = .next t) ∧
      receivesOnly (.clearDisplay 1 [0x04] 5) = true ∧ ∃ t, exec (.clearDisplay 1 [0x04] 5) ready0 = .next t :=
  ⟨⟨rfl, _, rfl⟩, rfl, _, rfl⟩

/-- One index that is stored to and one that is not. -/
theorem witness_BufChangesOnlyWhereABodyByteIsStored :
    (∃ t, exec (.rxs [0x48] 1000) (inBody 3 [0x01] 1000) = .next t) ∧
      1 ∈ storeIndices (receivedBytes Cfg.ref (.rxs [0x48] 1000)) (inBody 3 [0x01] 1000).beginStep ∧
      2 ∉ storeIndices (receivedBytes Cfg.ref (.rxs [0x48] 1000)) (inBody 3 [0x01] 1000).beginStep :=
  ⟨⟨_, rfl⟩, by decide⟩

theorem witness_APollCycleTouchesOnlyItsParts :
    (∃ t, exec (.pollCycle [] none none none) ready0 = .next t) ∧
      ∃ t, exec (.pollCycle [(0xAA, 9)] (some (0b1111, 9)) (some 9) (some (9, 0))) ready0 = .next t :=
  ⟨⟨_, rfl⟩, _, rfl⟩

/-- The hypotheses of the frame statements: a frame that finds the parser waiting and one that comes late, each with the
longest payload. -/
theorem frame_hypotheses :
    (ready0.cfg.Legal ∧ ready0.inited = true ∧ ready 5 ready0 ∧ (List.replicate 63 0xAA#8).length < ready0.cfg.maxBody) ∧
      (inBody 3 [0x01] 1000).cfg.Legal ∧ (inBody 3 [0x01] 1000).inited = true ∧ ready 1501 (inBody 3 [0x01] 1000) ∧
      (List.replicate 63 0xAA#8).length < (inBody 3 [0x01] 1000).cfg.maxBody :=
  ⟨⟨legal_ref, rfl, .inl rfl, by decide⟩, legal_ref, rfl, .inr (by decide), by decide⟩

theorem witness_TextFramesDeliverTheirPayload :
    ∃ (s : State) (p : List Byte), s.cfg.Legal ∧ s.inited = true ∧ ready 1501 s ∧ p.length < s.cfg.maxBody :=
  ⟨_, _, frame_hypotheses.2⟩

theorem witness_LedFrameDeliversItsQuadruples :
    ∃ (s : State) (p : List Byte), (s.cfg.Legal ∧ s.inited = true ∧ ready 1501 s ∧ p.length < s.cfg.maxBody) ∧
      14 < p.length / 4 := ⟨_, _, frame_hypotheses.2, by decide⟩

theorem witness_ClearFrameIgnoresItsPayload :
    ∃ (s : State) (p : List Byte), s.cfg.Legal ∧ s.inited = true ∧ ready 1501 s ∧ p.length < s.cfg.maxBody :=
  ⟨_, _, frame_hypotheses.2⟩

/-- A payload with four labels and one without. -/
theorem witness_LabelsFrameDeliversFourLabelsOrNothing :
    (ready0.cfg.Legal ∧ ready0.inited = true ∧ ready 5 ready0) ∧
      ([0x00#8, 0x00, 0x00].length < ready0.cfg.maxBody ∧ (labelSplit ready0.cfg [0x00, 0x00, 0x00]).isSome = true) ∧
      [0x41#8, 0x00, 0x42].length < ready0.cfg.maxBody ∧ labelSplit ready0.cfg [0x41, 0x00, 0x42] = none :=
  ⟨⟨legal_ref, rfl, .inl rfl⟩, by decide⟩

/-- Three zero bytes exactly, more after them, and two. -/
theorem witness_RefSplitCutsAtZeroBytes :
    ((0 : Byte) ∉ ([] : List Byte) ∧ (0 : Byte) ∉ [0x41#8]) ∧ ([] = ([] : List Byte) ∨ [0x00#8, 0x45].head? = some 0) ∧
      [0x00#8, 0x45].head? = some 0 ∧ [0x41#8, 0x00, 0x42, 0x00].count 0 < 3 := by decide

theorem witness_OtherFramesOnlyKeepTheSessionAlive :
    (ready0.cfg.Legal ∧ ready0.inited = true ∧ ready 5 ready0 ∧ (List.replicate 63 0xAA#8).length < ready0.cfg.maxBody) ∧
      0x7F#8 ∉ ready0.cfg.kinds := ⟨frame_hypotheses.1, by decide⟩

/-- V-P11: the first byte 501 ms after the truncated frame, the others 1 ms later. -/
theorem witness_AFreshFrameAfterSilenceIsDispatched :
    ∃ (s : State) (times : List Nat), s.cfg.Legal ∧ s.inited = true ∧ ([] : List Byte).length < s.cfg.maxBody ∧
      times.length = ([] : List Byte).length + 4 ∧ ready 1501 s ∧ noGap s.cfg 1501 times :=
  ⟨inBody 3 [0x01] 1000, [1502, 1502, 1502, 2002], legal_ref, rfl, by decide, rfl, .inr (by decide),
    by decide, by decide, by decide, by decide, trivial⟩

/-- V-P9's frame, the lowest and the highest bit, the kind byte and the last payload byte. -/
theorem witness_ASingleFlippedBitIsDetected :
    (ready0.cfg.Legal ∧ ready0.inited = true ∧ ready 5 ready0 ∧ [0x48#8, 0x69].length < ready0.cfg.maxBody) ∧
      (0 < 8 ∧ 7 < 8) ∧ (0 < [0x01#8, 0x48, 0x69].length ∧ 2 < [0x01#8, 0x48, 0x69].length) ∧
      [0xAA#8, 0x00, 0x03] = [0xAA, BitVec.ofNat 8 ((1 + [0x48#8, 0x69].length) / 256),
        BitVec.ofNat 8 (1 + [0x48#8, 0x69].length)] :=
  ⟨⟨legal_ref, rfl, .inl rfl, by decide⟩, by decide⟩

/-- At `SILENCE_MS`, one more, and not connected. -/
theorem witness_SilenceCheckDisconnectsAfterSilence :
    (alive 20).inited = true ∧ ready0.inited = true ∧
      ¬((alive 20).connected = true ∧ (alive 20).cfg.silenceMs < elapsed Cfg.ref 15020 (alive 20).tLastValid) ∧
      (alive 20).connected = true ∧ (alive 20).cfg.silenceMs < elapsed Cfg.ref 15021 (alive 20).tLastValid := by decide

/-- A silence check that disconnects, and a tick that does not. -/
theorem witness_OneNotificationPerDisconnect :
    (∃ t, exec (.sessionCheck 15021) (alive 20) = .next t ∧ t.connected = false ∧ (alive 20).connected = true) ∧
      ∃ t, exec (.sampleTick 0b1111 15021) (alive 20) = .next t ∧ t.connected = true :=
  ⟨⟨_, rfl, by decide⟩, _, rfl, by decide⟩

theorem witness_OnlyAValidFrameRaisesConnected :
    ∃ t, exec (.rxByte 0x04 1500) (atChecksum [0x04] 1000) = .next t ∧ (atChecksum [0x04] 1000).connected = false ∧
      t.connected = true := ⟨_, rfl, by decide⟩

/-- A frame begun before the cycle, a byte of noise after it; the check comes exactly `SILENCE_MS` after the frame's last
byte. -/
theorem witness_AValidFrameBeatsTheSilenceDeadline :
    ∃ s u : State, s.cfg.Legal ∧ s.inited = true ∧ rxAll [(0x69, 1500)] s.beginStep = .next u ∧
      completesFrame 0x20 2000 u [0x01, 0x48, 0x69] ∧
      ∀ p ∈ [((0x20 : Byte), 2000), (0x00, 2001)], elapsed s.cfg 17000 p.2 ≤ s.cfg.silenceMs :=
  ⟨inBody 3 [0x01, 0x48] 1000, _, legal_ref, rfl, rfl, ⟨rfl, rfl, rfl, rfl⟩, by decide⟩

theorem witness_ButtonEventIsSentAsOneFrame :
    (0x01#8 = if true then 0x01#8 else 0x00#8) ∧
      [0xAA#8, 0x00, 0x03, 0x10, 0x02, 0x01, 0x13] = [0xAA#8, 0x00, 0x03, Cfg.ref.kButtonEvent, BitVec.ofNat 8 (2 : Fin 4).val,
        0x01, Cfg.ref.kButtonEvent ^^^ BitVec.ofNat 8 (2 : Fin 4).val ^^^ 0x01] := by decide

theorem witness_HeartbeatIsSentAsOneFrame :
    [0xAA#8, 0x00, 0x02, 0x11, 0x5A, 0x4B] =
      [0xAA#8, 0x00, 0x02, Cfg.ref.kHeartbeat, 0x5A, Cfg.ref.kHeartbeat ^^^ 0x5A] := by decide

/-- One millisecond early and exactly due. -/
theorem witness_HeartbeatCheckSendsWhenDue :
    ready0.inited = true ∧ ¬ready0.cfg.heartbeatMs ≤ elapsed Cfg.ref 4999 ready0.tLastHb ∧
      ready0.cfg.heartbeatMs ≤ elapsed Cfg.ref 5000 ready0.tLastHb ∧
      [0xAA#8, 0x00, 0x02, 0x11, 0x5A, 0x4B] =
        [0xAA#8, 0x00, 0x02, ready0.cfg.kHeartbeat, 0x5A, ready0.cfg.kHeartbeat ^^^ 0x5A] := by decide

theorem witness_TxStreamIsTheBytesOfTheEffects :
    ∃ t, exec (.heartbeatCheck 5000 0x5A) ready0 = .next t ∧ t.effects ≠ [] := ⟨_, rfl, by decide⟩

/-- A frozen line at the last quiet millisecond, a report on the first one after it, and a tick below the threshold. -/
theorem witness_SampleTickStepsTheFourLines :
    ready0.inited = true ∧
      ((line true true 3 30).activeLow = true ∧ frozenAt (freezing ready0).cfg 79 (line true true 3 30)) ∧
      (¬frozenAt (freezing ready0).cfg 80 (line true true 3 30) ∧
        ¬edgeAt (freezing ready0).cfg 80 (line true true 3 30) false
          (countAfter (freezing ready0).cfg (line true true 3 30) false)) ∧
      ¬frozenAt ready0.cfg 80 (line false true 3 30) ∧
        edgeAt ready0.cfg 80 (line false true 3 30) false (countAfter ready0.cfg (line false true 3 30) false) := by
  unfold frozenAt edgeAt
  decide

/-- Two states that agree on line 0 only, with levels that agree on line 0 only. -/
theorem witness_LinesAreIndependent :
    ∃ s s' : State, s.cfg = s'.cfg ∧ s.lines.get 0 = s'.lines.get 0 ∧ s.lines ≠ s'.lines ∧
      (0b1110#4)[(0 : Fin 4).val] = (0b0000#4)[(0 : Fin 4).val] ∧
      (∃ t, exec (.sampleTick 0b1110 9) s = .next t) ∧ ∃ t, exec (.sampleTick 0b0000 9) s' = .next t :=
  ⟨ready0, { ready0 with lines := ready0.lines.set 1 (line true true 9 9) }, by decide, by decide, by decide, by decide,
    ⟨_, rfl⟩, _, rfl⟩

theorem witness_ReportedStateChangesOnlyWithItsEvent :
    ∃ s t u : State, (exec (.sampleTick 0b1110 30) s = .next t ∧ (t.lines.get 0).reported ≠ (s.lines.get 0).reported) ∧
      exec (.pollCycle [] (some (0b1110, 30)) none none) s = .next u ∧
      (u.lines.get 0).reported ≠ (s.lines.get 0).reported :=
  ⟨withLine0 (line true false 2 4294967246) ready0, _, _, ⟨rfl, by decide⟩, rfl, by decide⟩

theorem witness_PolarityIsFixedUntilInit :
    ∃ t, exec (.sampleTick 0b1110 30) (withLine0 (line true false 2 4294967246) ready0) = .next t := ⟨_, rfl⟩

/-- The counter at its largest value and at 1. -/
theorem witness_MatchCounterSaturates :
    ∃ s t : State, s.cfg.Legal ∧ (1 ≤ (s.lines.get 0).cnt ∧ (s.lines.get 0).cnt ≤ 2 ^ s.cfg.cntW - 1) ∧
      ((s.lines.get 0).cnt = 2 ^ s.cfg.cntW - 1 ∧ (s.lines.get 1).cnt = 1) ∧
      xor (0b1111#4)[(0 : Fin 4).val] (s.lines.get 0).activeLow = (s.lines.get 0).cand ∧
      exec (.sampleTick 0b1111 30) s = .next t :=
  ⟨withLine0 (line false false 255 0) ready0, _, by decide, by decide, by decide, by decide, rfl⟩

/-- The first press after `INIT`, three ticks of 10 ms. -/
theorem witness_ACleanPressIsReportedOnce :
    (ready0.cfg.Legal ∧ ready0.inited = true ∧ (ready0.lines.get 0).cand = false ∧
      (ready0.lines.get 0).reported = false) ∧
      ∀ p ∈ [(0b1110#4, 10), (0b0110#4, 20), (0b1110#4, 30)], xor p.1[(0 : Fin 4).val] (ready0.lines.get 0).activeLow = true ∧
        ready0.cfg.quietMs ≤ elapsed ready0.cfg p.2 (ready0.lines.get 0).tRep := by decide

/-- V-B8: `CNT_W = 8` at 255 against `CNT_W = 2` at 3. -/
theorem witness_CounterWidthIsNotObservable :
    sameButForCounts (withLine0 (line false false 255 0) ready0)
      { withLine0 (line false false 3 0) ready0 with cfg := { Cfg.ref with cntW := 2 } } :=
  ⟨rfl, by decide, by unfold sameUpToCount; decide⟩

theorem witness_AStepRunsTheDecodedInput :
    (State.reset.withFetchWord 8 7).pending = [.port (portIdle 7)] ∧ State.reset.pending = [] := by decide

theorem witness_NoOperationChangesTheParameter : ∃ t, exec (.init 0b1011 5) State.reset = .next t := ⟨_, rfl⟩

/-- A step that stores a body byte. -/
theorem witness_EveryStepKeepsTheInvariant :
    ∃ s t : State, s.Inv ∧ s.phase = .readBody ∧ step s = .next t ∧ t.phase = .readChecksum :=
  ⟨{ inBody 3 [0x01, 0x48] 1000 with pending := [.port { portIdle 1 with rxByte := 0x69, now := 1500 }] }, _,
    ⟨inBody_inv.legal, inBody_inv.parser, inBody_inv.buf, inBody_inv.times, inBody_inv.lines, inBody_inv.power⟩, rfl, rfl,
    rfl⟩

theorem witness_NoStepFaultsUnderTheInvariant :
    ready0.Inv ∧ (inBody 3 [0x01, 0x48] 1000).Inv ∧ (atChecksum [0x04] 1000).Inv ∧
      State.Inv { ready0 with pending := [.encode 0x01 (List.replicate 65535 0x00)] } :=
  ⟨ready0_inv, inBody_inv, atChecksum_inv,
    ⟨ready0_inv.legal, ready0_inv.parser, ready0_inv.buf, ready0_inv.times, ready0_inv.lines, ready0_inv.power⟩⟩

theorem witness_DecodingInvertsEncoding :
    Cfg.ref.Legal ∧ (Instr.unknownKind 3 0x7F [0xAA, 0xAA, 0x7F] 4294967295).wellFormed Cfg.ref = true := by decide

end Sys2Proof.Tests
end

section
/-! The bits of the length field, and the law of its byte order (30_encoding.md R94, 20_memory.md R65). -/

namespace Sys2Proof.Proofs

open Sys2Proof.Laws

/-- R94's concatenation `{len_hi, len_lo}` is the sum `len_hi * 256 + len_lo`: the low byte cannot carry into the
high one. -/
theorem lenOf_eq_append (hi lo : Byte) : lenOf hi lo = hi ++ lo := by
  apply BitVec.eq_of_toNat_eq
  rw [lenOf_toNat, BitVec.toNat_append, ← Nat.shiftLeft_add_eq_or_of_lt lo.isLt, Nat.shiftLeft_eq]

/-- Bits 15:8 of the length are the first byte (R65). -/
theorem lenOf_getLsbD_high (hi lo : Byte) (i : Nat) : (lenOf hi lo).getLsbD (8 + i) = hi.getLsbD i := by
  have hbit : (hi ++ lo).getLsbD (8 + i) = _ := BitVec.getLsbD_append
  simpa [lenOf_eq_append] using hbit

/-- Bits 7:0 of the length are the second byte (R65). -/
theorem lenOf_getLsbD_low (hi lo : Byte) {i : Nat} (h : i < 8) : (lenOf hi lo).getLsbD i = lo.getLsbD i := by
  have hbit : (hi ++ lo).getLsbD i = _ := BitVec.getLsbD_append
  simpa [lenOf_eq_append, h] using hbit

/-- Settles O6: the value and the bits of a joined length, and both directions of split and join, are the laws of
`lenOf`. -/
theorem lengthIsBigEndian : Obligations.LengthIsBigEndian := by
  unfold Obligations.LengthIsBigEndian
  refine ⟨fun hi lo => ⟨lenOf_toNat hi lo, fun i h => ?_, lenHi_lenOf hi lo, lenLo_lenOf hi lo⟩, lenOf_lenHi_lenLo⟩
  exact ⟨lenOf_getLsbD_high hi lo i, lenOf_getLsbD_low hi lo h⟩

end Sys2Proof.Proofs
end

section
/-! One received byte as an operation: the hunt for the marker and the storing of the body (41_parser.md R143, R146). -/

namespace Sys2Proof.Proofs

open Sys2Proof.Machine Sys2Proof.Laws

/-- A byte on time is interpreted in the phase it finds, after the timestamp and with the outputs of the last step
gone (R140 to R142). -/
theorem exec_rxByte_onTime {now : Nat} {s : State} (hi : s.inited = true) (hl : isLate now s = false) (b : Byte) :
    exec (.rxByte b now) s = transition b now { s.beginStep with tLastByte := now } :=
  rxByte_onTime (s := s.beginStep) hi hl

/-- Below the declared length the 16-bit test that ends the body is the test on numbers. -/
theorem cursor_succ_eq_iff {x len : BitVec 16} (h : x.toNat < len.toNat) :
    x + 1 = len ↔ x.toNat + 1 = len.toNat := by
  rw [← BitVec.toNat_inj, cursor_succ_toNat h]

/-- The cursor's move in `ReadBody` in one equation: one further, and on to the checksum at the declared length. -/
theorem advanceCursor_eq {s : State} (hp : s.phase = .readBody) (h : s.cursor.toNat < s.bodyLen.toNat) :
    advanceCursor s =
      { s with
        cursor := s.cursor + 1,
        phase := if s.cursor.toNat + 1 = s.bodyLen.toNat then .readChecksum else .readBody } := by
  by_cases hlast : s.cursor + 1 = s.bodyLen
  · rw [advanceCursor_last hlast, if_pos ((cursor_succ_eq_iff h).1 hlast), hlast]
  · rw [advanceCursor_more hlast, if_neg (mt (cursor_succ_eq_iff h).2 hlast), ← hp]

/-- Settles O10: a byte in `WaitStart` is never late, so it is interpreted there, as a marker or as noise. -/
theorem waitStartHuntsTheMarker : Obligations.WaitStartHuntsTheMarker := by
  unfold Obligations.WaitStartHuntsTheMarker
  intro b now s hi hp
  rw [exec_rxByte_onTime hi (isLate_waitStart hp), transition_waitStart (by exact hp)]
  by_cases hb : b = 0xAA
  · rw [waitStartByte, if_pos (by exact hb), if_pos hb]
    rfl
  · rw [waitStartByte, if_neg (by exact hb), if_neg hb, takeDrop, ← hp]
    rfl

/-- Settles O14: the byte is written at the cursor, which the declared length keeps inside BUF, and the cursor moves
on without a wrap. -/
theorem bodyByteIsStoredAtTheCursor : Obligations.BodyByteIsStoredAtTheCursor := by
  unfold Obligations.BodyByteIsStoredAtTheCursor
  intro b now s hi hp ht hcur hmax
  have hexec : exec (.rxByte b now) s = .next (advanceCursor
      { s.beginStep with tLastByte := now, buf := s.buf.write s.cursor.toNat b }) := by
    rw [exec_rxByte_onTime hi (isLate_of_elapsed_le ht), transition_readBody (by exact hp),
      bodyByte_ok (by exact lt_of_lt_of_le hcur hmax)]
    rfl
  rw [advanceCursor_eq (by exact hp) (by exact hcur)] at hexec
  exact ⟨_, hexec, read_write_same _ _ _, fun a ha => read_write_other _ _ _ _ ha, cursor_succ_toNat hcur, rfl⟩

end Sys2Proof.Proofs
end

section
/-! The decoder on the encoder's output, and the rows that the `op` codes select (30_encoding.md R91, R97, R110). -/

namespace Sys2Proof.Proofs

open Sys2Proof.Laws

/-- A time that fits the port is sampled unchanged (R43). -/
theorem sampleTime_of_timeFits {c : Cfg} {t : Nat} (h : c.timeFits t = true) : c.sampleTime t = t :=
  Nat.mod_eq_of_lt (of_decide_eq_true h)

/-- The decoder finds the header, the tail that the length field declares, and nothing after it (R108). -/
theorem decodeFrame_wireBytes {len : BitVec 16} {tail : List Byte} (h : frameTailFits len tail = true) (c : Cfg)
    (kind : Byte) (now : Nat) :
    decodeFrame c (wireBytes kind len tail) now = .ok (frameInstr c kind len tail now, []) := by
  have hlen : tail.length = len.toNat := by simpa [frameTailFits] using h
  simp [decodeFrame, wireBytes, ← hlen]

theorem decode_wireBytes {c : Cfg} {len : BitVec 16} {tail : List Byte} {now : Nat}
    (h : (frameTailFits len tail && c.timeFits now) = true) (kind : Byte) :
    decode c (.frame (wireBytes kind len tail) now) = frameInstr c kind len tail now := by
  obtain ⟨hlen, hnow⟩ := (Bool.and_eq_true _ _).mp h
  simp only [decode, decodeFrame_wireBytes hlen, sampleTime_of_timeFits hnow]

/-- In a legal configuration no kind code is one of those that the muxes of R97 and R180 test before it. -/
theorem kinds_distinct {c : Cfg} (h : c.Legal) :
    [c.kHeartbeat, c.kButtonEvent, c.kSetButtonLabels, c.kClearDisplay, c.kSetLeds, c.kStatusText,
      c.kDisplayText].Nodup := by
  obtain ⟨-, -, -, -, -, -, hkinds⟩ := h
  exact List.nodup_reverse.2 hkinds

/-- Any other kind byte selects `UNKNOWN_KIND` (R104). -/
theorem frameInstr_unknown {c : Cfg} {kind : Byte} (h : c.isUnknownKind kind = true) (len : BitVec 16)
    (tail : List Byte) (now : Nat) : frameInstr c kind len tail now = .unknownKind len kind tail now := by
  simp only [Cfg.isUnknownKind, Cfg.kinds, Bool.not_eq_true', List.contains_eq_mem, decide_eq_false_iff_not,
    List.mem_cons, not_or] at h
  simp [frameInstr, h]

/-- Settles O58: an `op` code selects its row by computation, a frame's kind byte by `frameInstr`, and every time that
fits is sampled unchanged. -/
theorem decodingInvertsEncoding : Obligations.DecodingInvertsEncoding := by
  unfold Obligations.DecodingInvertsEncoding
  intro c i hc hw
  have hne := kinds_distinct hc
  simp only [List.nodup_cons, List.mem_cons, not_or] at hne
  cases i with
  | nop | sendButtonEvent | sendHeartbeat | xorfold | encode | bridgeConnected => rfl
  | rxByte b now => exact congrArg (Instr.rxByte b) (sampleTime_of_timeFits hw)
  | sampleTick levels now => exact congrArg (Instr.sampleTick levels) (sampleTime_of_timeFits hw)
  | sessionCheck now => exact congrArg Instr.sessionCheck (sampleTime_of_timeFits hw)
  | heartbeatCheck now status => exact congrArg (Instr.heartbeatCheck · status) (sampleTime_of_timeFits hw)
  | init levels now => exact congrArg (Instr.init levels) (sampleTime_of_timeFits hw)
  | rxs bs now => exact congrArg (Instr.rxs bs) (sampleTime_of_timeFits hw)
  | displayText | statusText | setLeds | clearDisplay | setButtonLabels | buttonEvent | heartbeat =>
    exact (decode_wireBytes hw _).trans (by simp [frameInstr, hne])
  | unknownKind len kind tail now =>
    simp only [Instr.wellFormed, Bool.and_assoc] at hw
    obtain ⟨hunknown, hfits⟩ := (Bool.and_eq_true _ _).mp hw
    exact (decode_wireBytes hfits kind).trans (frameInstr_unknown hunknown len tail now)
  | pollCycle rx tick silence beat =>
    simp only [Instr.wellFormed, Bool.and_eq_true, List.all_eq_true, Option.all_eq_true] at hw
    obtain ⟨⟨⟨hrx, htick⟩, hsilence⟩, hbeat⟩ := hw
    simp only [encode, decode, Instr.pollCycle.injEq]
    refine ⟨?_, ?_, ?_, ?_⟩
    · exact (List.map_congr_left (g := id) fun p hp =>
        congrArg (Prod.mk p.1) (sampleTime_of_timeFits (hrx p hp))).trans (List.map_id rx)
    · exact (Option.map_congr (g := id) fun p hp =>
        congrArg (Prod.mk p.1) (sampleTime_of_timeFits (htick p hp))).trans Option.map_id_apply
    · exact (Option.map_congr (g := id) fun p hp => sampleTime_of_timeFits (hsilence p hp)).trans Option.map_id_apply
    · exact (Option.map_congr (g := id) fun p hp =>
        congrArg (Prod.mk · p.2) (sampleTime_of_timeFits (hbeat p hp))).trans Option.map_id_apply

/-- Settles O59: each code is computed, and a sample of the port carries the operands of the operation it selects. -/
theorem everyOpCodeIsDefined : Obligations.EveryOpCodeIsDefined := by
  unfold Obligations.EveryOpCodeIsDefined
  refine ⟨fun _ _ => ⟨rfl, rfl, rfl, rfl, rfl, rfl, rfl, rfl⟩, fun c p => ?_⟩
  have hcode : ∀ o : BitVec 3, o = 0 ∨ o = 1 ∨ o = 2 ∨ o = 3 ∨ o = 4 ∨ o = 5 ∨ o = 6 ∨ o = 7 := by decide
  have htime : c.sampleTime (c.sampleTime p.now) = c.sampleTime p.now := Nat.mod_mod _ _
  obtain ⟨op, now, rxByte, levels, hbStatus, btnIndex, btnPressed⟩ := p
  rcases hcode op with rfl | rfl | rfl | rfl | rfl | rfl | rfl | rfl
  · exact ⟨_, rfl, rfl, rfl⟩
  · exact ⟨_, rfl, rfl, congrArg (Instr.rxByte rxByte) htime⟩
  · exact ⟨_, rfl, rfl, congrArg (Instr.sampleTick levels) htime⟩
  · exact ⟨_, rfl, rfl, congrArg Instr.sessionCheck htime⟩
  · exact ⟨_, rfl, rfl, congrArg (Instr.heartbeatCheck · hbStatus) htime⟩
  · exact ⟨_, rfl, rfl, rfl⟩
  · exact ⟨_, rfl, rfl, rfl⟩
  · exact ⟨_, rfl, rfl, congrArg (Instr.init levels) htime⟩

/-- Settles O60: the five words are closed terms, and the decoder computes. -/
theorem tableWordsDecode : Obligations.TableWordsDecode := by
  unfold Obligations.TableWordsDecode
  decide

end Sys2Proof.Proofs
end

section
/-! Every operation as its parts: what it receives, its tick, its silence check and its heartbeat check, each of which
may be missing; the sends, the answers and `INIT` stand apart (30_encoding.md R110 to R113, 45_system.md R226). -/

namespace Sys2Proof.Proofs

open Sys2Proof.Machine Sys2Proof.Laws

/-! ### The parts of an operation -/

/-- The tick an operation makes. -/
def tickOf (i : Instr) : Option (BitVec 4 × Nat) :=
  match i with
  | .sampleTick levels now => some (levels, now)
  | .pollCycle _ tick _ _ => tick
  | _ => none

/-- The time of the silence check an operation makes. -/
def silenceOf (i : Instr) : Option Nat :=
  match i with
  | .sessionCheck now => some now
  | .pollCycle _ _ silence _ => silence
  | _ => none

/-- The heartbeat check an operation makes. -/
def beatOf (i : Instr) : Option (Nat × Byte) :=
  match i with
  | .heartbeatCheck now status => some (now, status)
  | .pollCycle _ _ _ beat => beat
  | _ => none

/-- The operations that consist of receptions, ticks and checks only. -/
def isCycle (i : Instr) : Bool :=
  match i with
  | .sendButtonEvent _ _ | .sendHeartbeat _ | .init _ _ | .xorfold _ | .encode _ _ | .bridgeConnected => false
  | _ => true

@[simp] theorem andThen_next_right (o : Out) : andThen o Host.Outcome.next = o := by cases o <;> rfl

/-- A receiving operation is the reception of its bytes. -/
theorem exec_receivesOnly {i : Instr} (h : receivesOnly i = true) (s : State) :
    exec i s = rxAll (receivedBytes s.cfg i) s.beginStep := by
  cases i with
  | rxByte b now => exact (andThen_next_right _).symm
  | displayText | statusText | setLeds | clearDisplay | setButtonLabels | buttonEvent | heartbeat | unknownKind | rxs =>
    rfl
  | nop | sampleTick | sessionCheck | heartbeatCheck | sendButtonEvent | sendHeartbeat | init | xorfold | encode
  | bridgeConnected | pollCycle => cases h

/-- A cycle that only receives. -/
theorem execPollCycle_receive (rx : List (Byte × Nat)) (s : State) :
    execPollCycle rx none none none s = rxAll rx s.beginStep := by
  show andThen (andThen (andThen (rxAll rx s.beginStep) Host.Outcome.next) Host.Outcome.next) Host.Outcome.next = _
  simp only [andThen_next_right]

/-- An operation made of receptions, ticks and checks is the poll cycle of its parts. -/
theorem exec_eq_cycle {i : Instr} (h : isCycle i = true) (s : State) :
    exec i s = execPollCycle (receivedBytes s.cfg i) (tickOf i) (silenceOf i) (beatOf i) s := by
  cases i with
  | nop | pollCycle => rfl
  | sampleTick levels now =>
    exact ((andThen_next_right _).trans (andThen_next_right (cycleTick (some (levels, now)) s.beginStep))).symm
  | sessionCheck now => exact (andThen_next_right (cycleSilence (some now) s.beginStep)).symm
  | heartbeatCheck => rfl
  | rxByte | displayText | statusText | setLeds | clearDisplay | setButtonLabels | buttonEvent | heartbeat | unknownKind
  | rxs => exact (exec_receivesOnly rfl s).trans (execPollCycle_receive _ s).symm
  | sendButtonEvent | sendHeartbeat | init | xorfold | encode | bridgeConnected => cases h

/-- Everything an operation that answers can be: the cycle of its parts, one transmission, one answer, or `INIT`. -/
theorem exec_cases {i : Instr} {s t : State} (h : exec i s = .next t) :
    (isCycle i = true ∧ execPollCycle (receivedBytes s.cfg i) (tickOf i) (silenceOf i) (beatOf i) s = .next t) ∨
    (receivedBytes s.cfg i = [] ∧
      ((∃ bytes, t = s.beginStep.emit (.tx bytes)) ∨ ∃ r, t = s.beginStep.answer r)) ∨
    ∃ levels now, i = .init levels now ∧ t = initialised levels now s.beginStep := by
  cases hc : isCycle i with
  | true => exact .inl ⟨rfl, exec_eq_cycle hc s ▸ h⟩
  | false =>
    cases i with
    | sendButtonEvent | sendHeartbeat =>
      cases h
      exact .inr (.inl ⟨rfl, .inl ⟨_, rfl⟩⟩)
    | xorfold | bridgeConnected =>
      cases h
      exact .inr (.inl ⟨rfl, .inr ⟨_, rfl⟩⟩)
    | encode kind payload =>
      simp only [exec, execEncode] at h
      split at h
      · cases h
        exact .inr (.inl ⟨rfl, .inr ⟨_, rfl⟩⟩)
      · cases h
    | init levels now =>
      cases h
      exact .inr (.inr ⟨levels, now, rfl, rfl⟩)
    | nop | pollCycle | sampleTick | sessionCheck | heartbeatCheck | rxByte | displayText | statusText | setLeds
    | clearDisplay | setButtonLabels | buttonEvent | heartbeat | unknownKind | rxs => cases hc

/-! ### What every part keeps, every operation keeps -/

/-- A property that each of the received bytes keeps is kept by receiving them all. -/
theorem rxAll_induction_mem {motive : State → Prop} {rx : List (Byte × Nat)} {s t : State}
    (hstep : ∀ b now u v, (b, now) ∈ rx → motive u → rxByte b now u = .next v → motive v) (hs : motive s)
    (h : rxAll rx s = .next t) : motive t := by
  induction rx generalizing s with
  | nil =>
    cases h
    exact hs
  | cons p rest ih =>
    obtain ⟨u, hu, hk⟩ := andThen_eq_next h
    exact ih (fun b now u v hm => hstep b now u v (List.mem_cons_of_mem _ hm))
      (hstep p.1 p.2 s u List.mem_cons_self hs hu) hk

/-- A property that every part of a poll cycle keeps is kept by the cycle. -/
theorem execPollCycle_induction {motive : State → Prop} {rx : List (Byte × Nat)} {tick : Option (BitVec 4 × Nat)}
    {silence : Option Nat} {beat : Option (Nat × Byte)} {s t : State}
    (hrx : ∀ b now u v, (b, now) ∈ rx → motive u → rxByte b now u = .next v → motive v)
    (htick : ∀ levels now u, tick = some (levels, now) → motive u → motive (sampleLines levels now u))
    (hsilence : ∀ now u, silence = some now → motive u → motive (silenceCheck now u))
    (hbeat : ∀ now status u, beat = some (now, status) → motive u → motive (beatCheck now status u))
    (hs : motive s.beginStep) (h : execPollCycle rx tick silence beat s = .next t) : motive t := by
  obtain ⟨u, v, w, h1, h2, h3, h4⟩ := execPollCycle_cases h
  have hu : motive u := rxAll_induction_mem hrx hs h1
  have hv : motive v := by
    obtain ⟨-, rfl⟩ | ⟨levels, now, ht, -, rfl⟩ := cycleTick_cases h2
    · exact hu
    · exact htick levels now u ht hu
  have hw : motive w := by
    obtain ⟨-, rfl⟩ | ⟨now, hn, -, rfl⟩ := cycleSilence_cases h3
    · exact hv
    · exact hsilence now v hn hv
  obtain ⟨-, rfl⟩ | ⟨now, status, hb, -, rfl⟩ := cycleBeat_cases h4
  · exact hw
  · exact hbeat now status w hb hw

/-- A property that every part, every send and every answer keeps, and `INIT` establishes, holds after every
operation. -/
theorem exec_induction {motive : State → Prop} {i : Instr} {s t : State}
    (hrx : ∀ b now u v, (b, now) ∈ receivedBytes s.cfg i → motive u → rxByte b now u = .next v → motive v)
    (htick : ∀ levels now u, tickOf i = some (levels, now) → motive u → motive (sampleLines levels now u))
    (hsilence : ∀ now u, silenceOf i = some now → motive u → motive (silenceCheck now u))
    (hbeat : ∀ now status u, beatOf i = some (now, status) → motive u → motive (beatCheck now status u))
    (hsend : ∀ bytes u, motive u → motive (u.emit (.tx bytes))) (hanswer : ∀ r u, motive u → motive (u.answer r))
    (hinit : ∀ levels now, i = .init levels now → motive (initialised levels now s.beginStep))
    (hs : motive s.beginStep) (h : exec i s = .next t) : motive t := by
  obtain ⟨-, hc⟩ | ⟨-, ⟨bytes, rfl⟩ | ⟨r, rfl⟩⟩ | ⟨levels, now, hi, rfl⟩ := exec_cases h
  · exact execPollCycle_induction hrx htick hsilence hbeat hs hc
  · exact hsend bytes _ hs
  · exact hanswer r _ hs
  · exact hinit levels now hi

end Sys2Proof.Proofs
end

section
/-! The invariant of R29: what a received byte, a tick, a check and `INIT` do to it, and that a parser that meets it
answers every byte (10_state.md section 3, 41_parser.md R152, 60_exceptions.md R243). -/

namespace Sys2Proof.Proofs

open Sys2Proof.Machine Sys2Proof.Laws

/-! ### The parser registers -/

theorem parserInv_waitStart {s : State} (h : s.phase = .waitStart) : s.parserInv := by
  simp [State.parserInv, h]

theorem parserInv_readLenHigh {s : State} (h : s.phase = .readLenHigh) : s.parserInv ↔ s.cursor = 0 := by
  simp [State.parserInv, h]

theorem parserInv_readLenLow {s : State} (h : s.phase = .readLenLow) :
    s.parserInv ↔ s.cursor = 0 ∧ lenLo s.bodyLen = 0 := by
  simp [State.parserInv, h]

theorem parserInv_readBody {s : State} (h : s.phase = .readBody) :
    s.parserInv ↔ (1 ≤ s.bodyLen.toNat ∧ s.bodyLen.toNat ≤ s.cfg.maxBody) ∧ s.cursor.toNat < s.bodyLen.toNat ∧
      s.holdsBytes s.cursor.toNat := by
  simp [State.parserInv, h]

theorem parserInv_readChecksum {s : State} (h : s.phase = .readChecksum) :
    s.parserInv ↔ (1 ≤ s.bodyLen.toNat ∧ s.bodyLen.toNat ≤ s.cfg.maxBody) ∧ s.cursor = s.bodyLen ∧
      s.holdsBytes s.bodyLen.toNat := by
  simp [State.parserInv, h]

/-- A byte in `WaitStart` opens a frame with the cursor at 0, or the parser waits on. -/
theorem waitStartByte_parserInv (b : Byte) (s : State) : (waitStartByte b s).parserInv := by
  unfold waitStartByte
  split
  · exact (parserInv_readLenHigh rfl).2 rfl
  · exact parserInv_waitStart rfl

/-- The bound check lets through only a length from 1 to `MAX_BODY`, with nothing stored yet. -/
theorem boundCheck_parserInv {s : State} (hc : s.cursor = 0) : (boundCheck s).parserInv := by
  unfold boundCheck
  split
  · exact parserInv_waitStart rfl
  split
  · exact parserInv_waitStart rfl
  · rename_i hlong hzero
    simp only [lenTooLong, lenIsZero, decide_eq_true_eq] at hlong hzero
    have hcur : s.cursor.toNat = 0 := congrArg BitVec.toNat hc
    refine (parserInv_readBody rfl).2 ⟨⟨?_, ?_⟩, ?_, fun a ha => ?_⟩ <;> dsimp only at * <;> omega

/-- A store at index `n` extends the stored bytes by one. -/
theorem holdsBytes_write {s : State} {n : Nat} (h : s.holdsBytes n) (b : Byte) :
    State.holdsBytes { s with buf := s.buf.write n b } (n + 1) := by
  intro a ha
  by_cases hn : a = n
  · subst hn
    simp
  · simpa [read_write_other _ _ _ _ hn] using h a (by omega)

/-- A stored body byte leaves all bytes before the new cursor stored. -/
theorem advanceCursor_parserInv {s : State} (hp : s.phase = .readBody) (h : s.parserInv) (b : Byte) :
    (advanceCursor { s with buf := s.buf.write s.cursor.toNat b }).parserInv := by
  obtain ⟨hlen, hcur, hheld⟩ := (parserInv_readBody hp).1 h
  have hsucc := cursor_succ_toNat hcur
  have hnext := holdsBytes_write hheld b
  rw [← hsucc] at hnext
  by_cases hlast : s.cursor + 1 = s.bodyLen
  · rw [advanceCursor_last (by exact hlast)]
    exact (parserInv_readChecksum rfl).2 ⟨hlen, rfl, hlast ▸ hnext⟩
  · rw [advanceCursor_more (by exact hlast)]
    have hne := mt (cursor_succ_eq_iff hcur).2 hlast
    have hmore : (s.cursor + 1).toNat < s.bodyLen.toNat := by omega
    refine (parserInv_readBody ?_).2 ⟨hlen, hmore, hnext⟩
    exact hp

/-- A received byte keeps what the phases say of the parser registers (R29). -/
theorem rxByte_parserInv {b : Byte} {now : Nat} {s t : State} (hinv : s.parserInv) (h : rxByte b now s = .next t) :
    t.parserInv := by
  obtain ⟨-, ⟨-, rfl⟩ | ⟨-, ht⟩⟩ := rxByte_cases h
  · exact waitStartByte_parserInv _ _
  · obtain ⟨-, rfl⟩ | ⟨hp, rfl⟩ | ⟨hp, rfl⟩ | ⟨hp, -, rfl⟩ | ⟨-, body, -, ⟨-, rfl⟩ | ⟨-, k, p, -, -, rfl⟩⟩ :=
      transition_cases ht
    · exact waitStartByte_parserInv _ _
    · exact (parserInv_readLenLow rfl).2 ⟨(parserInv_readLenHigh hp).1 hinv, lenLo_lenOf b 0⟩
    · exact boundCheck_parserInv ((parserInv_readLenLow hp).1 hinv).1
    · exact advanceCursor_parserInv (s := { s with tLastByte := now }) hp hinv b
    · exact parserInv_waitStart rfl
    · exact parserInv_waitStart rfl

/-- A parser that meets R29 has a transition for every byte. -/
theorem transition_answers {s : State} (hinv : s.parserInv) (b : Byte) (now : Nat) :
    ∃ t, transition b now s = .next t := by
  cases hp : s.phase with
  | waitStart => exact ⟨_, transition_waitStart hp b now⟩
  | readLenHigh => exact ⟨_, transition_readLenHigh hp b now⟩
  | readLenLow => exact ⟨_, transition_readLenLow hp b now⟩
  | readBody =>
    obtain ⟨⟨-, hmax⟩, hcur, -⟩ := (parserInv_readBody hp).1 hinv
    exact ⟨_, (transition_readBody hp b now).trans (bodyByte_ok (lt_of_lt_of_le hcur hmax) b)⟩
  | readChecksum =>
    obtain ⟨⟨hpos, hmax⟩, -, hheld⟩ := (parserInv_readChecksum hp).1 hinv
    obtain ⟨body, hbody⟩ := bufBytes_exists s 0 s.bodyLen.toNat (by omega) fun j hj => by simpa using hheld j hj
    obtain ⟨hlen, hall⟩ := bufBytes_spec hbody
    obtain ⟨kind, payload, rfl⟩ := List.exists_cons_of_length_pos (hlen ▸ hpos)
    exact ⟨_, (transition_readChecksum hp b now).trans
      (checksumByte_eq b now hmax hlen.symm fun j hj => by simpa using (hall j hj).2)⟩

/-- After `INIT` a parser that meets R29 answers every byte (R152). -/
theorem rxByte_answers {s : State} (hi : s.inited = true) (hinv : s.parserInv) (b : Byte) (now : Nat) :
    ∃ t, rxByte b now s = .next t := by
  cases hl : isLate now s with
  | true => exact ⟨_, rxByte_late hi hl⟩
  | false =>
    rw [rxByte_onTime hi hl]
    exact transition_answers (s := { s with tLastByte := now }) hinv b now

/-- After `INIT` a parser that meets R29 answers every sequence of bytes. -/
theorem rxAll_answers {s : State} (hi : s.inited = true) (hinv : s.parserInv) (rx : List (Byte × Nat)) :
    ∃ t, rxAll rx s = .next t := by
  induction rx generalizing s with
  | nil => exact ⟨s, rfl⟩
  | cons p rest ih =>
    obtain ⟨u, hu⟩ := rxByte_answers hi hinv p.1 p.2
    obtain ⟨-, hiu, -⟩ := rxByte_keeps hu
    obtain ⟨t, ht⟩ := ih (hiu.trans hi) (rxByte_parserInv hinv hu)
    exact ⟨t, by rw [rxAll_cons, hu, andThen_next, ht]⟩

/-! ### Operations that answer -/

theorem cycleTick_answers {s : State} (hi : s.inited = true) (tick : Option (BitVec 4 × Nat)) :
    ∃ t, cycleTick tick s = .next t ∧ t.inited = true := by
  cases tick with
  | none => exact ⟨s, rfl, hi⟩
  | some p => exact ⟨sampleLines p.1 p.2 s, requireInit_true hi, by rw [sampleLines_rest]; exact hi⟩

theorem cycleSilence_answers {s : State} (hi : s.inited = true) (silence : Option Nat) :
    ∃ t, cycleSilence silence s = .next t ∧ t.inited = true := by
  cases silence with
  | none => exact ⟨s, rfl, hi⟩
  | some now => exact ⟨silenceCheck now s, requireInit_true hi, by rw [silenceCheck_rest]; exact hi⟩

theorem cycleBeat_answers {s : State} (hi : s.inited = true) (beat : Option (Nat × Byte)) :
    ∃ t, cycleBeat beat s = .next t := by
  cases beat with
  | none => exact ⟨s, rfl⟩
  | some p => exact ⟨beatCheck p.1 p.2 s, requireInit_true hi⟩

/-- After `INIT` a poll cycle answers when its received bytes do: only these can stop it. -/
theorem execPollCycle_answers {rx : List (Byte × Nat)} {s u : State} (hi : s.inited = true)
    (hu : rxAll rx s.beginStep = .next u) (tick : Option (BitVec 4 × Nat)) (silence : Option Nat)
    (beat : Option (Nat × Byte)) : ∃ t, execPollCycle rx tick silence beat s = .next t := by
  obtain ⟨-, hiu, -⟩ := rxAll_keeps hu
  obtain ⟨v, hv, hiv⟩ := cycleTick_answers (hiu.trans hi) tick
  obtain ⟨w, hw, hiw⟩ := cycleSilence_answers hiv silence
  obtain ⟨t, ht⟩ := cycleBeat_answers hiw beat
  exact ⟨t, by rw [execPollCycle, hu, andThen_next, hv, andThen_next, hw, andThen_next, ht]⟩

/-- After `INIT` every operation made of receptions, ticks and checks answers, if the parser meets R29. -/
theorem exec_cycle_answers {i : Instr} (hc : isCycle i = true) {s : State} (hi : s.inited = true)
    (hinv : s.parserInv) : ∃ t, exec i s = .next t := by
  obtain ⟨u, hu⟩ := rxAll_answers (s := s.beginStep) hi hinv (receivedBytes s.cfg i)
  rw [exec_eq_cycle hc]
  exact execPollCycle_answers hi hu _ _ _

/-- Before `INIT` such an operation is refused at its first part (R223), or it has none and answers. -/
theorem exec_cycle_beforeInit {i : Instr} (hc : isCycle i = true) {s : State} (hi : s.inited = false) :
    exec i s = .refused .notInitialised ∨
      (receivedBytes s.cfg i = [] ∧ tickOf i = none ∧ silenceOf i = none ∧ beatOf i = none ∧
        exec i s = .next s.beginStep) := by
  rw [exec_eq_cycle hc]
  have hrefuse : ∀ o, requireInit s.beginStep o = .refused .notInitialised := fun o => requireInit_false hi
  unfold execPollCycle
  cases receivedBytes s.cfg i with
  | cons p rest =>
    rw [rxAll_cons, rxByte, hrefuse]
    exact .inl rfl
  | nil =>
    cases tickOf i with
    | some p => exact .inl (by simp [cycleTick, hrefuse])
    | none =>
      cases silenceOf i with
      | some now => exact .inl (by simp [cycleTick, cycleSilence, hrefuse])
      | none =>
        cases beatOf i with
        | some p => exact .inl (by simp [cycleTick, cycleSilence, cycleBeat, hrefuse])
        | none => exact .inr ⟨rfl, rfl, rfl, rfl, rfl⟩

/-- Settles O24: each of these operations is made of receptions, ticks and checks. -/
theorem burstsFramesAndCyclesAlwaysAnswer : Obligations.BurstsFramesAndCyclesAlwaysAnswer := by
  unfold Obligations.BurstsFramesAndCyclesAlwaysAnswer
  intro bs tail len kind now rx tick silence beat s hinv hi i hmem
  refine exec_cycle_answers ?_ hi hinv.parser
  simp only [List.mem_cons, List.not_mem_nil, or_false] at hmem
  rcases hmem with rfl | rfl | rfl | rfl | rfl | rfl | rfl | rfl | rfl | rfl <;> rfl

/-- If the parser meets R29, an operation answers, or is refused before `INIT`, or is an `ENCODE` beyond its domain. -/
theorem exec_answers_or_refused {s : State} (hinv : s.parserInv) (i : Instr) :
    (∃ t, exec i s = .next t) ∨ (exec i s = .refused .notInitialised ∧ s.inited = false) ∨
      ∃ kind payload, i = .encode kind payload ∧ 65534 < payload.length ∧ exec i s = .refused .encodeDomain := by
  cases hc : isCycle i with
  | true =>
    cases hi : s.inited with
    | true => exact .inl (exec_cycle_answers hc hi hinv)
    | false =>
      obtain h | ⟨-, -, -, -, h⟩ := exec_cycle_beforeInit hc hi
      · exact .inr (.inl ⟨h, rfl⟩)
      · exact .inl ⟨_, h⟩
  | false =>
    cases i with
    | encode kind payload =>
      by_cases hp : payload.length ≤ 65534
      · exact .inl ⟨_, if_pos (decide_eq_true hp)⟩
      · exact .inr (.inr ⟨kind, payload, rfl, by omega, if_neg (by simpa [encodeDomain] using hp)⟩)
    | sendButtonEvent | sendHeartbeat | init | xorfold | bridgeConnected => exact .inl ⟨_, rfl⟩
    | nop | pollCycle | sampleTick | sessionCheck | heartbeatCheck | rxByte | displayText | statusText | setLeds
    | clearDisplay | setButtonLabels | buttonEvent | heartbeat | unknownKind | rxs => cases hc

/-- Settles O52: both cases are the two arms of the step. -/
theorem aStepRunsTheDecodedInput : Obligations.AStepRunsTheDecodedInput := by
  unfold Obligations.AStepRunsTheDecodedInput
  exact ⟨fun s inp rest h => by rw [step, h], fun s h => by rw [step, h]⟩

/-- Settles O57: the step is `NOP` or runs the decoded input, which meets R29 as the state does. -/
theorem noStepFaultsUnderTheInvariant : Obligations.NoStepFaultsUnderTheInvariant := by
  unfold Obligations.NoStepFaultsUnderTheInvariant
  intro s hinv
  obtain ⟨hrun, hidle⟩ := aStepRunsTheDecodedInput
  cases hpend : s.pending with
  | nil => exact .inl ⟨_, hidle s hpend⟩
  | cons inp rest =>
    rw [hrun s inp rest hpend]
    obtain h | h | ⟨kind, payload, hdec, hlong, h⟩ :=
      exec_answers_or_refused (s := { s with pending := rest }) hinv.parser (decode s.cfg inp)
    · exact .inl h
    · exact .inr (.inl h)
    · exact .inr (.inr ⟨inp, rest, kind, payload, rfl, hdec, hlong, h⟩)

end Sys2Proof.Proofs
end

section
/-! Every step keeps the invariant: the sampled times fit `TIME_W` bits, and each part of an operation keeps each part
of the invariant (10_state.md R24, R29, R33, R38; 20_memory.md R61). -/

namespace Sys2Proof.Proofs

open Sys2Proof.Machine Sys2Proof.Laws

/-! ### The times of a decoded input (R33, R43) -/

/-- Every time that an operation writes to a register fits `TIME_W` bits. -/
structure TimesFit (c : Cfg) (i : Instr) : Prop where
  received : ∀ p ∈ receivedBytes c i, p.2 < 2 ^ c.timeW
  tick : ∀ p ∈ tickOf i, p.2 < 2 ^ c.timeW
  beat : ∀ p ∈ beatOf i, p.1 < 2 ^ c.timeW
  init : ∀ levels now, i = .init levels now → now < 2 ^ c.timeW

theorem sampleTime_lt (c : Cfg) (t : Nat) : c.sampleTime t < 2 ^ c.timeW := Nat.mod_lt _ (Nat.two_pow_pos _)

/-- All bytes of a frame row arrive at its time. -/
theorem timesFit_frameInstr {c : Cfg} {now : Nat} (h : now < 2 ^ c.timeW) (kind : Byte) (len : BitVec 16)
    (tail : List Byte) : TimesFit c (frameInstr c kind len tail now) := by
  unfold frameInstr
  split_ifs <;> exact ⟨by simp [receivedBytes, h], nofun, nofun, nofun⟩

theorem timesFit_rxs {c : Cfg} {now : Nat} (h : now < 2 ^ c.timeW) (bs : List Byte) : TimesFit c (.rxs bs now) :=
  ⟨by simp [receivedBytes, h], nofun, nofun, nofun⟩

theorem timesFit_nop {c : Cfg} : TimesFit c .nop := ⟨by simp [receivedBytes], nofun, nofun, nofun⟩

theorem decodeFrame_ok {c : Cfg} {bytes rest : List Byte} {now : Nat} {i : Instr}
    (h : decodeFrame c bytes now = .ok (i, rest)) : ∃ kind len tail, i = frameInstr c kind len tail now := by
  unfold decodeFrame at h
  split at h
  · cases h
  split at h
  · split at h
    · dsimp only at h
      split at h
      · cases h
      · cases h
        exact ⟨_, _, _, rfl⟩
    · cases h
  · cases h

/-- The decoder brings every time below `2^TIME_W`. -/
theorem timesFit_decode (c : Cfg) (inp : Input) : TimesFit c (decode c inp) := by
  have hlt := sampleTime_lt c
  cases inp with
  | port p =>
    simp only [decode, decodePort]
    split_ifs
    all_goals constructor <;> simp [receivedBytes, tickOf, beatOf, hlt]
  | frame bytes now =>
    simp only [decode]
    split
    · rename_i i hi
      obtain ⟨kind, len, tail, rfl⟩ := decodeFrame_ok hi
      exact timesFit_frameInstr (hlt now) kind len tail
    · exact timesFit_rxs (hlt now) bytes
  | burst bytes now => exact timesFit_rxs (hlt now) bytes
  | cycle rx tick silence beat =>
    refine ⟨fun p hp => ?_, fun p hp => ?_, fun p hp => ?_, nofun⟩
    · obtain ⟨q, -, rfl⟩ := List.mem_map.1 hp
      exact hlt q.2
    · obtain ⟨q, -, rfl⟩ := Option.mem_map.1 hp
      exact hlt q.2
    · obtain ⟨q, -, rfl⟩ := Option.mem_map.1 hp
      exact hlt q.1
  | xorfold | encode | connected => exact ⟨by simp [decode, receivedBytes], nofun, nofun, nofun⟩

/-! ### BUF -/

/-- A received byte leaves BUF alone or stores itself at the cursor, at an index that exists (20_memory.md R68). -/
theorem rxByte_buf {b : Byte} {now : Nat} {s t : State} (h : rxByte b now s = .next t) :
    t.buf = s.buf ∨ (storeIndex now s = some s.cursor.toNat ∧ s.cursor.toNat < s.cfg.maxBody ∧
      t.buf = s.buf.write s.cursor.toNat b) := by
  obtain ⟨-, ⟨-, rfl⟩ | ⟨hl, ht⟩⟩ := rxByte_cases h
  · rw [waitStartByte_rest]
    exact .inl rfl
  · obtain ⟨-, rfl⟩ | ⟨-, rfl⟩ | ⟨-, rfl⟩ | ⟨hp, hc, rfl⟩ | ⟨-, body, -, ⟨-, rfl⟩ | ⟨-, k, p, -, -, rfl⟩⟩ :=
      transition_cases ht
    · rw [waitStartByte_rest]
      exact .inl rfl
    · exact .inl rfl
    · rw [lenLowByte_rest]
      exact .inl rfl
    · rw [advanceCursor_rest]
      exact .inr ⟨if_pos ⟨hp, hl⟩, hc, rfl⟩
    · exact .inl rfl
    · rw [dispatch_eq]
      exact .inl rfl

theorem rxByte_bufInv {b : Byte} {now : Nat} {s t : State} (hinv : s.bufInv) (h : rxByte b now s = .next t) :
    t.bufInv := by
  obtain ⟨hwf, hlisted⟩ := hinv
  obtain ⟨hcfg, -⟩ := rxByte_keeps h
  unfold State.bufInv
  rw [hcfg]
  obtain hbuf | ⟨-, hcur, hbuf⟩ := rxByte_buf h <;> rw [hbuf]
  · exact ⟨hwf, hlisted⟩
  · refine ⟨write_wf _ _ _ hwf, fun p hp => ?_⟩
    rcases mem_write hp with rfl | hp
    · exact hcur
    · exact hlisted p hp

/-! ### The lines -/

theorem countAfter_bounds {c : Cfg} (h : c.Legal) (L : ButtonLine) (v : Bool) :
    1 ≤ countAfter c L v ∧ countAfter c L v ≤ 2 ^ c.cntW - 1 := by
  obtain ⟨-, -, -, -, -, ⟨hthresh, hmax⟩, -⟩ := h
  have hone := hthresh.trans hmax
  unfold countAfter
  split
  · exact ⟨Nat.le_min.2 ⟨Nat.succ_pos _, hone⟩, Nat.min_le_right _ _⟩
  · exact ⟨le_refl _, hone⟩

/-- A line's step keeps the widths of its registers (R38, R39, R205). -/
theorem lineStep_inv {c : Cfg} (hc : c.Legal) {now : Nat} (hnow : now < 2 ^ c.timeW) {inited : Bool} {L : ButtonLine}
    (h : L.inv c inited) (level : Bool) : (lineStep c level now L).1.inv c inited := by
  obtain ⟨htime, hcnt, hpos⟩ := h
  obtain ⟨hone, hle⟩ := countAfter_bounds hc L (xor level L.activeLow)
  obtain ⟨-, e⟩ | ⟨-, -, e⟩ | ⟨-, -, e⟩ := lineStep_cases c level now L _ rfl <;> rw [e]
  · exact ⟨htime, hcnt, hpos⟩
  · exact ⟨hnow, hle, fun _ => hone⟩
  · exact ⟨htime, hle, fun _ => hone⟩

/-- A calibrated line has one match, and its last report lies `QUIET_MS` back (R201). -/
theorem calibrated_inv {c : Cfg} (h : c.Legal) (level : Bool) (now : Nat) : (calibrated c level now).inv c true := by
  obtain ⟨-, -, -, -, -, ⟨hthresh, hmax⟩, -⟩ := h
  exact ⟨elapsed_lt _ _ _, hthresh.trans hmax, fun _ => le_refl _⟩

theorem calibratedLines_get (c : Cfg) (levels : BitVec 4) (now : Nat) (i : Fin 4) :
    (calibratedLines c levels now).get i = calibrated c (rawLevel levels i) now := by
  match i with
  | 0 | 1 | 2 | 3 => rfl

/-! ### The parts of an operation -/

theorem rxByte_inv {b : Byte} {now : Nat} {s t : State} (hinv : s.Inv) (hnow : now < 2 ^ s.cfg.timeW)
    (h : rxByte b now s = .next t) : t.Inv := by
  obtain ⟨hcfg, hinited, hhb, hlines, -, -, -, hbyte⟩ := rxByte_keeps h
  obtain ⟨htb, htv, hth⟩ := hinv.times
  have hvalid : t.tLastValid < 2 ^ s.cfg.timeW := by
    obtain ⟨-, -, hv, -⟩ | ⟨hv, -⟩ := rxByte_session h <;> rw [hv]
    · exact hnow
    · exact htv
  exact {
    legal := hcfg ▸ hinv.legal
    parser := rxByte_parserInv hinv.parser h
    buf := rxByte_bufInv hinv.buf h
    times := by
      unfold State.timesInv
      rw [hcfg, hbyte, hhb]
      exact ⟨hnow, hvalid, hth⟩
    lines := by
      rw [hcfg, hinited, hlines]
      exact hinv.lines
    power := fun hi => by
      rw [hinited, (rxByte_cases h).1] at hi
      cases hi }

theorem sampleLines_inv {levels : BitVec 4} {now : Nat} {s : State} (hinv : s.Inv) (hnow : now < 2 ^ s.cfg.timeW) :
    (sampleLines levels now s).Inv := by
  have hlines := fun i => lineStep_inv hinv.legal hnow (hinv.lines i) (rawLevel levels i)
  simp only [← sampleLines_get] at hlines
  rw [sampleLines_rest]
  exact ⟨hinv.legal, hinv.parser, hinv.buf, hinv.times, hlines, hinv.power⟩

/-- The silence check can only take `connected` away. -/
theorem silenceCheck_connected {now : Nat} {s : State} (h : s.connected = false) :
    (silenceCheck now s).connected = false := by
  simp [silenceCheck, h]

theorem silenceCheck_inv {now : Nat} {s : State} (hinv : s.Inv) : (silenceCheck now s).Inv := by
  have hpower : s.inited = false → s.phase = .waitStart ∧ (silenceCheck now s).connected = false := fun hi => by
    obtain ⟨hphase, hconn⟩ := hinv.power hi
    exact ⟨hphase, silenceCheck_connected hconn⟩
  rw [silenceCheck_rest]
  exact ⟨hinv.legal, hinv.parser, hinv.buf, hinv.times, hinv.lines, hpower⟩

theorem beatCheck_inv {now : Nat} {status : Byte} {s : State} (hinv : s.Inv) (hnow : now < 2 ^ s.cfg.timeW) :
    (beatCheck now status s).Inv := by
  obtain ⟨htb, htv, -⟩ := hinv.times
  unfold beatCheck
  split
  · exact ⟨hinv.legal, hinv.parser, hinv.buf, ⟨htb, htv, hnow⟩, hinv.lines, hinv.power⟩
  · exact hinv

theorem initialised_inv {levels : BitVec 4} {now : Nat} {s : State} (hinv : s.Inv) (hnow : now < 2 ^ s.cfg.timeW) :
    (initialised levels now s).Inv where
  legal := hinv.legal
  parser := parserInv_waitStart rfl
  buf := hinv.buf
  times := ⟨hnow, hnow, hnow⟩
  lines i := by
    show ((calibratedLines s.cfg levels now).get i).inv s.cfg true
    rw [calibratedLines_get]
    exact calibrated_inv hinv.legal _ _
  power := nofun

/-- An operation whose times fit keeps the invariant. -/
theorem exec_inv {i : Instr} {s t : State} (hinv : s.Inv) (hfit : TimesFit s.cfg i) (h : exec i s = .next t) :
    t.Inv := by
  refine (exec_induction (motive := fun u => u.Inv ∧ u.cfg = s.cfg) ?_ ?_ ?_ ?_ ?_ ?_ ?_ ?_ h).1
  · intro b now u v hmem ⟨hu, hc⟩ hv
    exact ⟨rxByte_inv hu (hc ▸ hfit.received _ hmem) hv, (rxByte_keeps hv).1.trans hc⟩
  · intro levels now u htick ⟨hu, hc⟩
    exact ⟨sampleLines_inv hu (hc ▸ hfit.tick _ htick), by rw [sampleLines_rest]; exact hc⟩
  · intro now u _ ⟨hu, hc⟩
    exact ⟨silenceCheck_inv hu, by rw [silenceCheck_rest]; exact hc⟩
  · intro now status u hbeat ⟨hu, hc⟩
    exact ⟨beatCheck_inv hu (hc ▸ hfit.beat _ hbeat), by rw [beatCheck_rest]; exact hc⟩
  · intro bytes u ⟨hu, hc⟩
    exact ⟨⟨hu.legal, hu.parser, hu.buf, hu.times, hu.lines, hu.power⟩, hc⟩
  · intro r u ⟨hu, hc⟩
    exact ⟨⟨hu.legal, hu.parser, hu.buf, hu.times, hu.lines, hu.power⟩, hc⟩
  · intro levels now hi
    exact ⟨initialised_inv (s := s.beginStep)
      ⟨hinv.legal, hinv.parser, hinv.buf, hinv.times, hinv.lines, hinv.power⟩ (hfit.init levels now hi), rfl⟩
  · exact ⟨⟨hinv.legal, hinv.parser, hinv.buf, hinv.times, hinv.lines, hinv.power⟩, rfl⟩

/-- Settles O56: the step runs a decoded input, whose times fit, or `NOP`. -/
theorem everyStepKeepsTheInvariant : Obligations.EveryStepKeepsTheInvariant := by
  unfold Obligations.EveryStepKeepsTheInvariant
  intro s t hinv hstep
  obtain ⟨hrun, hidle⟩ := aStepRunsTheDecodedInput
  cases hpend : s.pending with
  | nil => exact exec_inv hinv timesFit_nop ((hidle s hpend).symm.trans hstep)
  | cons inp rest =>
    exact exec_inv (s := { s with pending := rest })
      ⟨hinv.legal, hinv.parser, hinv.buf, hinv.times, hinv.lines, hinv.power⟩ (timesFit_decode s.cfg inp)
      ((hrun s inp rest hpend).symm.trans hstep)

/-- Settles O55: nothing is stored, nothing is in progress, and every register is 0. -/
theorem resetMeetsTheInvariant : Obligations.ResetMeetsTheInvariant := by
  unfold Obligations.ResetMeetsTheInvariant
  exact {
    legal := by decide
    parser := parserInv_waitStart rfl
    buf := ⟨reset_buf_wf, nofun⟩
    times := by unfold State.timesInv; decide
    lines := by unfold ButtonLine.inv; decide
    power := fun _ => ⟨rfl, rfl⟩ }

end Sys2Proof.Proofs
end

section
/-! Whole frames on the wire: a well-formed frame that finds the parser ready is accepted and dispatched, whatever the
times of its bytes, and a wrong checksum drops it (40_codec.md R133, 41_parser.md R149, R154, 43_dispatcher.md). -/

namespace Sys2Proof.Proofs

open Sys2Proof.Machine Sys2Proof.Laws

/-! ### The bytes of a frame and their times -/

theorem lenHi_ofNat {n : Nat} (h : n < 65536) : lenHi (BitVec.ofNat 16 n) = BitVec.ofNat 8 (n / 256) := by
  rw [lenHi, BitVec.toNat_ofNat, Nat.mod_eq_of_lt h]

theorem lenLo_ofNat {n : Nat} (h : n < 65536) : lenLo (BitVec.ofNat 16 n) = BitVec.ofNat 8 n := by
  rw [lenLo, BitVec.toNat_ofNat, Nat.mod_eq_of_lt h]

/-- A body that fits BUF has a 16-bit length (R7). -/
theorem bodyLength_lt {c : Cfg} (h : c.Legal) {n : Nat} (hn : n < c.maxBody) : 1 + n < 65536 := by
  obtain ⟨⟨-, hmax⟩, -⟩ := h
  omega

theorem map_eq_zip_replicate (bs : List Byte) (now : Nat) :
    (bs.map fun b => (b, now)) = bs.zip (List.replicate bs.length now) := by
  rw [List.map_prod_left_eq_zip, List.map_const']

theorem getLastD_replicate (n t : Nat) : (List.replicate n t).getLastD t = t := by
  induction n with
  | zero => rfl
  | succ n ih => rw [List.replicate_succ, List.getLastD_cons, ih]

/-- The times of a frame: three for the header, one per body byte, one for the checksum byte. -/
theorem frameTimes_cases {times : List Nat} {n : Nat} (h : times.length = n + 4) :
    ∃ t1 t2 ts tc, times = t1 :: t2 :: (ts ++ [tc]) ∧ ts.length = 1 + n := by
  match times, h with
  | t1 :: t2 :: rest, h =>
    obtain rfl | ⟨ts, tc, rfl⟩ := rest.eq_nil_or_concat'
    · simp at h
    · exact ⟨t1, t2, ts, tc, rfl, by simp at h; omega⟩

/-- The bytes of a frame with their times, cut where the parser changes phase. -/
theorem frame_zip {kind : Byte} {p : List Byte} {check : Byte} {len : BitVec 16} {t0 t1 t2 tc : Nat} {ts : List Nat}
    (h : ts.length = 1 + p.length) :
    (wireBytes kind len (p ++ [check])).zip (t0 :: t1 :: t2 :: (ts ++ [tc])) =
      (Config.marker, t0) :: (lenHi len, t1) :: (lenLo len, t2) :: ((kind :: p).zip ts ++ [(check, tc)]) := by
  have hz : (kind :: p ++ [check]).zip (ts ++ [tc]) = (kind :: p).zip ts ++ [(check, tc)] :=
    List.zip_append (by rw [h, List.length_cons, Nat.add_comm])
  rw [← hz]
  rfl

/-! ### Acceptance -/

/-- R154: a well-formed frame whose first byte finds the parser ready, and whose other bytes follow without a gap, is
accepted and dispatched. -/
theorem rxAll_frameOf_accepted {s : State} {kind : Byte} {p : List Byte} {t0 : Nat} {times : List Nat}
    (hc : s.cfg.Legal) (hi : s.inited = true) (hp : p.length < s.cfg.maxBody) (htimes : times.length = p.length + 4)
    (hr : ready t0 s) (hg : noGap s.cfg t0 times) :
    ∃ t, rxAll ((frameOf kind p).zip (t0 :: times)) s.beginStep = .next t ∧
      frameAccepted s kind p ((t0 :: times).getLastD t0) (entryDrops t0 s) (actionOf s.cfg kind p) t := by
  obtain ⟨t1, t2, ts, tc, rfl, hts⟩ := frameTimes_cases htimes
  have hlen : (BitVec.ofNat 16 (1 + p.length)).toNat = 1 + p.length :=
    Nat.mod_eq_of_lt (bodyLength_lt hc hp)
  obtain ⟨u, hu, hrx⟩ := rxAll_frame s.beginStep kind p (xorFold (kind :: p)) _ t0 t1 t2 ts tc hi hr hlen hp hts hg
  have hread := read_writeAll s.buf 0 (kind :: p)
  simp only [Nat.zero_add] at hread
  have hlast : (t0 :: t1 :: t2 :: (ts ++ [tc])).getLastD t0 = tc := by
    rw [List.getLastD_cons, List.getLastD_cons, List.getLastD_cons, List.getLastD_concat]
  rw [frameOf, frame_zip hts, hrx, if_pos rfl, hlast]
  subst hu
  refine ⟨_, rfl, ⟨rfl, rfl, rfl, rfl⟩, ⟨hlen, rfl⟩, ⟨rfl, rfl, rfl, rfl⟩, hread, fun a ha => ?_,
    rfl, rfl, rfl, rfl, rfl⟩
  exact read_writeAll_other _ _ _ _ (.inr (by simpa using ha))

/-- A well-formed frame row, all of whose bytes arrive at one time (log 11), is accepted and dispatched. -/
theorem receiveFrame_accepted {s : State} {p : List Byte} {now : Nat} (hc : s.cfg.Legal) (hi : s.inited = true)
    (hr : ready now s) (hp : p.length < s.cfg.maxBody) (kind : Byte) :
    ∃ t, receiveFrame kind (BitVec.ofNat 16 (1 + p.length)) (p ++ [xorFold (kind :: p)]) now s = .next t ∧
      frameAccepted s kind p now (entryDrops now s) (actionOf s.cfg kind p) t := by
  have hlen : (frameOf kind p).length = p.length + 4 + 1 := by simp [frameOf, wireBytes]
  have hmap : ((frameOf kind p).map fun b => (b, now)) =
      (frameOf kind p).zip (now :: List.replicate (p.length + 4) now) := by
    rw [map_eq_zip_replicate, hlen, List.replicate_succ]
  have h := rxAll_frameOf_accepted (kind := kind) hc hi hp (List.length_replicate ..) hr (noGap_replicate _ now _)
  rw [← hmap, List.getLastD_cons, getLastD_replicate] at h
  exact h

/-! ### The actions of the kinds (43_dispatcher.md R180 to R187) -/

/-- Each of the five inbound kinds has its own action. -/
theorem actionOf_inbound {c : Cfg} (h : c.Legal) (p : List Byte) :
    actionOf c c.kDisplayText p = [.displayText p] ∧ actionOf c c.kStatusText p = [.statusText p] ∧
    actionOf c c.kSetLeds p = [.setLeds (quadruples p)] ∧ actionOf c c.kClearDisplay p = [.clearDisplay] ∧
    actionOf c c.kSetButtonLabels p = ((labelSplit c p).map Effect.setButtonLabels).toList := by
  have hne := kinds_distinct h
  simp only [List.nodup_cons, List.mem_cons, not_or] at hne
  simp [actionOf, hne]

/-- Any other kind has no action. -/
theorem actionOf_other {c : Cfg} {kind : Byte}
    (h : kind ∉ [c.kDisplayText, c.kStatusText, c.kSetLeds, c.kClearDisplay, c.kSetButtonLabels]) (p : List Byte) :
    actionOf c kind p = [] := by
  simp only [List.mem_cons, not_or] at h
  simp [actionOf, h]

/-- Settles O34: the cycle is the reception of the frame's bytes. -/
theorem aFreshFrameAfterSilenceIsDispatched : Obligations.AFreshFrameAfterSilenceIsDispatched := by
  unfold Obligations.AFreshFrameAfterSilenceIsDispatched
  intro s kind p t0 times hc hi hp htimes hr hg
  obtain ⟨t, ht, hacc⟩ := rxAll_frameOf_accepted (kind := kind) hc hi hp htimes hr hg
  exact ⟨t, (execPollCycle_receive _ s).trans ht, hacc⟩

/-- Settles O28: both text kinds are accepted, and their action is the payload. -/
theorem textFramesDeliverTheirPayload : Obligations.TextFramesDeliverTheirPayload := by
  unfold Obligations.TextFramesDeliverTheirPayload
  intro s p now hc hi hr hp
  obtain ⟨hdisplay, hstatus, -⟩ := actionOf_inbound hc p
  exact ⟨hdisplay ▸ receiveFrame_accepted hc hi hr hp s.cfg.kDisplayText,
    hstatus ▸ receiveFrame_accepted hc hi hr hp s.cfg.kStatusText⟩

/-- The quadruples of a payload: as many as fit, the `j`-th from payload bytes `4j` to `4j + 3` (R183). -/
theorem quadruples_spec : ∀ p : List Byte, (quadruples p).length = p.length / 4 ∧
    ∀ j, j < p.length / 4 → ∃ L, (quadruples p)[j]? = some L ∧ p[4 * j]? = some L.index ∧ p[4 * j + 1]? = some L.r ∧
      p[4 * j + 2]? = some L.g ∧ p[4 * j + 3]? = some L.b
  | [] | [_] | [_, _] | [_, _, _] => by simp [quadruples]
  | i :: r :: g :: b :: rest => by
    obtain ⟨hlen, hget⟩ := quadruples_spec rest
    have hdiv : (i :: r :: g :: b :: rest).length / 4 = rest.length / 4 + 1 := by simp only [List.length_cons]; omega
    rw [hdiv]
    refine ⟨congrArg Nat.succ hlen, fun j hj => ?_⟩
    cases j with
    | zero => exact ⟨⟨i, r, g, b⟩, rfl, rfl, rfl, rfl, rfl⟩
    | succ j => exact hget j (by omega)

/-- Settles O29: the frame is accepted, and its action is the quadruples of the payload. -/
theorem ledFrameDeliversItsQuadruples : Obligations.LedFrameDeliversItsQuadruples := by
  unfold Obligations.LedFrameDeliversItsQuadruples
  intro s p now hc hi hr hp
  obtain ⟨-, -, hleds, -⟩ := actionOf_inbound hc p
  obtain ⟨t, ht, hacc⟩ := receiveFrame_accepted hc hi hr hp s.cfg.kSetLeds
  exact ⟨t, quadruples p, ht, hleds ▸ hacc, quadruples_spec p⟩

/-- Settles O30: the frame is accepted, and its action does not depend on the payload. -/
theorem clearFrameIgnoresItsPayload : Obligations.ClearFrameIgnoresItsPayload := by
  unfold Obligations.ClearFrameIgnoresItsPayload
  intro s p now hc hi hr hp
  obtain ⟨-, -, -, hclear, -⟩ := actionOf_inbound hc p
  exact hclear ▸ receiveFrame_accepted hc hi hr hp s.cfg.kClearDisplay

/-- Settles O31: the frame is accepted either way, and the action is that of the four labels, if any. -/
theorem labelsFrameDeliversFourLabelsOrNothing : Obligations.LabelsFrameDeliversFourLabelsOrNothing := by
  unfold Obligations.LabelsFrameDeliversFourLabelsOrNothing
  intro s p now hc hi hr hp
  obtain ⟨-, -, -, -, hlabels⟩ := actionOf_inbound hc p
  obtain ⟨t, ht, hacc⟩ := receiveFrame_accepted hc hi hr hp s.cfg.kSetButtonLabels
  rw [hlabels] at hacc
  refine ⟨t, ht, ?_⟩
  cases hsplit : labelSplit s.cfg p <;> rw [hsplit] at hacc <;> exact hacc

/-- Settles O33: none of these kinds is one of the five inbound kinds. -/
theorem otherFramesOnlyKeepTheSessionAlive : Obligations.OtherFramesOnlyKeepTheSessionAlive := by
  unfold Obligations.OtherFramesOnlyKeepTheSessionAlive
  intro s p kind now hc hi hr hp hkind
  have hne := kinds_distinct hc
  simp only [List.nodup_cons, List.mem_cons, not_or] at hne
  have hunknown := actionOf_other (c := s.cfg) (kind := kind) (by simp_all [Cfg.kinds]) p
  have hbutton := actionOf_other (c := s.cfg) (kind := s.cfg.kButtonEvent) (by simp [hne]) p
  have hbeat := actionOf_other (c := s.cfg) (kind := s.cfg.kHeartbeat) (by simp [hne]) p
  exact ⟨hunknown ▸ receiveFrame_accepted hc hi hr hp kind,
    hbutton ▸ receiveFrame_accepted hc hi hr hp s.cfg.kButtonEvent,
    hbeat ▸ receiveFrame_accepted hc hi hr hp s.cfg.kHeartbeat⟩

/-! ### A wrong checksum (R133, R149) -/

/-- One byte of a string changed by a mask changes the fold by the same mask. -/
theorem xorFold_set (bs : List Byte) (j : Nat) (h : j < bs.length) (mask : Byte) :
    xorFold (bs.set j (bs[j] ^^^ mask)) = xorFold bs ^^^ mask := by
  induction bs generalizing j with
  | nil => simp at h
  | cons b rest ih =>
    cases j with
    | zero =>
      simp only [List.set_cons_zero, List.getElem_cons_zero, xorFold_cons]
      rw [BitVec.xor_assoc, BitVec.xor_comm mask, BitVec.xor_assoc]
    | succ j =>
      simp only [List.set_cons_succ, List.getElem_cons_succ, xorFold_cons, ih j (Nat.lt_of_succ_lt_succ h),
        BitVec.xor_assoc]

theorem xor_bit_ne (x : Byte) {bit : Nat} (h : bit < 8) : x ^^^ (1#8 <<< bit) ≠ x := by
  intro he
  have hzero : 1#8 <<< bit = 0#8 := by simpa [← BitVec.xor_assoc] using congrArg (x ^^^ ·) he
  exact (by decide : ∀ bit < 8, 1#8 <<< bit ≠ 0#8) bit h hzero

/-- A frame whose header is right and whose last byte is not the fold of its body is dropped: no action, and the session
is as before. -/
theorem rxs_wrongChecksum {s : State} {now n : Nat} {body : List Byte} {check : Byte} (hc : s.cfg.Legal)
    (hi : s.inited = true) (hr : ready now s) (hn : n < s.cfg.maxBody) (hbody : body.length = 1 + n)
    (hcheck : check ≠ xorFold body) :
    ∃ t, exec (.rxs ([0xAA, BitVec.ofNat 8 ((1 + n) / 256), BitVec.ofNat 8 (1 + n)] ++ body ++ [check]) now) s =
        .next t ∧
      t.drops = entryDrops now s ++ [.badChecksum] ∧ t.effects = [] ∧ t.phase = .waitStart ∧
      t.connected = s.connected ∧ t.tLastValid = s.tLastValid := by
  have hlt := bodyLength_lt hc hn
  obtain ⟨kind, p, rfl⟩ := List.exists_cons_of_length_pos (l := body) (by omega)
  have hp : p.length = n := by simp only [List.length_cons] at hbody; omega
  subst hp
  have hgap := noGap_replicate s.cfg now (1 + p.length + 1 + 2)
  rw [List.replicate_succ, List.replicate_succ, List.replicate_succ'] at hgap
  obtain ⟨u, hu, hrx⟩ := rxAll_frame s.beginStep kind p check (BitVec.ofNat 16 (1 + p.length)) now now now
    (List.replicate (1 + p.length) now) now hi hr (Nat.mod_eq_of_lt hlt) hn List.length_replicate hgap
  rw [if_neg hcheck, lenHi_ofNat hlt, lenLo_ofNat hlt] at hrx
  subst hu
  refine ⟨_, Eq.trans ?_ hrx, rfl, rfl, rfl, rfl, rfl⟩
  have hbody : ((kind :: p).map fun b => (b, now)) = (kind :: p).zip (List.replicate (1 + p.length) now) := by
    rw [map_eq_zip_replicate, List.length_cons, Nat.add_comm]
  rw [← hbody]
  simp [exec, execRxs, rxBurst, Config.marker]

/-- Settles O35: a flipped bit of the body changes the fold, a flipped bit of the checksum byte changes that byte. -/
theorem aSingleFlippedBitIsDetected : Obligations.ASingleFlippedBitIsDetected := by
  unfold Obligations.ASingleFlippedBitIsDetected
  intro s kind p now bit header hc hi hr hp hbit hheader
  subst hheader
  refine ⟨fun j hj => ?_, ?_⟩
  · refine rxs_wrongChecksum hc hi hr hp (by rw [List.length_set, List.length_cons, Nat.add_comm]) ?_
    rw [xorFold_set _ _ hj]
    exact (xor_bit_ne _ hbit).symm
  · exact rxs_wrongChecksum hc hi hr hp (by rw [List.length_cons, Nat.add_comm]) (xor_bit_ne _ hbit)

end Sys2Proof.Proofs
end

section
/-! The functions of the block: the modular time difference, the XOR fold, the encoder and the cut at zero bytes
(00_scope.md R10, 40_codec.md R130 to R132, 43_dispatcher.md R188). -/

namespace Sys2Proof.Proofs

open Sys2Proof.Machine Sys2Proof.Laws

/-- Settles O5: the two sides differ by `1 + t / 2^TIME_W` whole turns of the clock. -/
theorem elapsedIsTheModularDifference : Obligations.ElapsedIsTheModularDifference := by
  unfold Obligations.ElapsedIsTheModularDifference
  intro c now t
  have hlt : t % 2 ^ c.timeW ≤ 2 ^ c.timeW := (Nat.mod_lt t (Nat.two_pow_pos _)).le
  have hdiv : ((2 ^ c.timeW : Nat) : Int) * ((t / 2 ^ c.timeW : Nat) : Int) + ((t % 2 ^ c.timeW : Nat) : Int) = t := by
    exact_mod_cast Nat.div_add_mod t (2 ^ c.timeW)
  have hturns : ((now + (2 ^ c.timeW - t % 2 ^ c.timeW) : Nat) : Int) =
      (now - t) + (2 ^ c.timeW : Nat) * (1 + (t / 2 ^ c.timeW : Nat)) := by
    rw [Nat.cast_add, Nat.cast_sub hlt]
    linarith
  rw [elapsed, Int.natCast_mod, hturns, Int.add_mul_emod_self_left, Nat.cast_pow, Nat.cast_ofNat]

theorem xorFold_append (as bs : List Byte) : xorFold (as ++ bs) = xorFold as ^^^ xorFold bs := by
  induction as with
  | nil => simp [xorFold]
  | cons a rest ih => rw [List.cons_append, xorFold_cons, ih, xorFold_cons, BitVec.xor_assoc]

theorem xorFold_perm {as bs : List Byte} (h : as.Perm bs) : xorFold as = xorFold bs := by
  have hcomm (c x y : Byte) : c ^^^ x ^^^ y = c ^^^ y ^^^ x := by
    rw [BitVec.xor_assoc, BitVec.xor_comm x, ← BitVec.xor_assoc]
  exact h.foldl_eq' (fun x _ y _ c => hcomm c x y) 0x00

/-- Settles O7: the fold from `0x00` is a sum in a commutative group. -/
theorem xorFoldAnswersTheFold : Obligations.XorFoldAnswersTheFold := by
  unfold Obligations.XorFoldAnswersTheFold
  refine ⟨fun _ _ => rfl, rfl, fun b => ?_, xorFold_append, fun _ _ => xorFold_perm⟩
  rw [xorFold_cons, show xorFold [] = 0#8 from rfl, BitVec.xor_zero]

/-- Settles O8: the two length bytes of the frame are the high and the low byte of `1 + |payload|`. -/
theorem encodeAnswersTheFrame : Obligations.EncodeAnswersTheFrame := by
  unfold Obligations.EncodeAnswersTheFrame
  intro kind payload s h
  have hlt : 1 + payload.length < 65536 := by omega
  have hlow : BitVec.ofNat 8 (1 + payload.length) = BitVec.ofNat 8 ((1 + payload.length) % 256) := by
    apply BitVec.eq_of_toNat_eq
    simp
  have hframe : frameOf kind payload = [0xAA, BitVec.ofNat 8 ((1 + payload.length) / 256),
      BitVec.ofNat 8 ((1 + payload.length) % 256), kind] ++ payload ++ [xorFold (kind :: payload)] := by
    rw [frameOf, wireBytes, lenHi_ofNat hlt, lenLo_ofNat hlt, hlow]
    rfl
  rw [← hframe]
  exact if_pos (decide_eq_true h)

/-- Settles O9: the domain test of R132 fails. -/
theorem encodeBeyondItsDomainIsRefused : Obligations.EncodeBeyondItsDomainIsRefused := by
  unfold Obligations.EncodeBeyondItsDomainIsRefused
  intro kind payload s h
  exact if_neg (by simpa [encodeDomain] using h)

/-! ### REF_SPLIT (R188) -/

/-- The bytes before the first `0x00` are the first piece. -/
theorem cutAtZero_piece {a : List Byte} (h : (0 : Byte) ∉ a) (p : List Byte) :
    cutAtZero (a ++ [0] ++ p) = a :: cutAtZero p := by
  obtain ⟨q, qs, hq, happ⟩ := cutAtZero_append a ([0] ++ p) h
  rw [List.cons_append, List.nil_append, cutAtZero, if_pos rfl] at hq
  cases hq
  rw [List.append_assoc, happ, List.append_nil]

/-- Bytes up to a `0x00` or to the end are the first piece. -/
theorem cutAtZero_head {a rest : List Byte} (h : (0 : Byte) ∉ a) (hrest : rest = [] ∨ rest.head? = some 0) :
    ∃ qs, cutAtZero (a ++ rest) = a :: qs := by
  obtain ⟨q, qs, hq, happ⟩ := cutAtZero_append a rest h
  have hnil : q = [] := by
    cases rest with
    | nil =>
      cases hq
      rfl
    | cons b rest =>
      obtain rfl : b = 0 := by simpa using hrest
      rw [cutAtZero, if_pos rfl] at hq
      cases hq
      rfl
  exact ⟨qs, by rw [happ, hnil, List.append_nil]⟩

/-- Settles O32: three cuts leave four pieces in front; fewer than three leave at most three pieces in all. -/
theorem refSplitCutsAtZeroBytes : Obligations.RefSplitCutsAtZeroBytes := by
  unfold Obligations.RefSplitCutsAtZeroBytes
  refine ⟨fun s0 s1 s2 s3 rest h0 h1 h2 h3 hrest => ?_, fun payload hcount => ?_⟩
  · obtain ⟨qs, hlast⟩ := cutAtZero_head h3 hrest
    have hcut : cutAtZero (s0 ++ [0] ++ (s1 ++ [0] ++ (s2 ++ [0] ++ (s3 ++ rest)))) = s0 :: s1 :: s2 :: s3 :: qs := by
      rw [cutAtZero_piece h0, cutAtZero_piece h1, cutAtZero_piece h2, hlast]
    simp only [List.append_assoc] at hcut ⊢
    rw [refSplit, hcut]
  · have hlen := cutAtZero_length payload
    unfold refSplit
    split
    · rename_i heq
      rw [heq] at hlen
      simp only [List.length_cons] at hlen
      omega
    · rfl

end Sys2Proof.Proofs
end

section
/-! One received byte: the late byte, the length field, the checksum, the drops it can report and the accesses to BUF
that fault (41_parser.md R141 to R152, 60_exceptions.md R240, R252, 20_memory.md R61). -/

namespace Sys2Proof.Proofs

open Sys2Proof.Machine Sys2Proof.Laws

/-! ### The drops of one byte -/

/-- A byte in `WaitStart` is a marker, or is dropped. -/
theorem waitStartByte_cases (b : Byte) (s : State) :
    (b = 0xAA ∧ waitStartByte b s = { s with cursor := 0, phase := .readLenHigh }) ∨
      (b ≠ 0xAA ∧ waitStartByte b s = takeDrop .badStart s) := by
  by_cases hb : b = 0xAA
  · exact .inl ⟨hb, if_pos hb⟩
  · exact .inr ⟨hb, if_neg hb⟩

/-- A complete length is dropped as oversize, dropped as zero, or opens the body. -/
theorem boundCheck_cases (s : State) :
    (s.cfg.maxBody < s.bodyLen.toNat ∧ boundCheck s = takeDrop .lenOversize s) ∨
      (¬s.cfg.maxBody < s.bodyLen.toNat ∧ s.bodyLen.toNat = 0 ∧ boundCheck s = takeDrop .lenZero s) ∨
      (¬s.cfg.maxBody < s.bodyLen.toNat ∧ s.bodyLen.toNat ≠ 0 ∧ boundCheck s = { s with phase := .readBody }) := by
  unfold boundCheck lenTooLong lenIsZero
  by_cases hlong : s.cfg.maxBody < s.bodyLen.toNat
  · exact .inl ⟨hlong, by rw [if_pos (decide_eq_true hlong)]⟩
  · by_cases hzero : s.bodyLen.toNat = 0
    · exact .inr (.inl ⟨hlong, hzero, by rw [if_neg (by simpa using hlong), if_pos (decide_eq_true hzero)]⟩)
    · exact .inr (.inr ⟨hlong, hzero, by rw [if_neg (by simpa using hlong), if_neg (by simpa using hzero)]⟩)

/-- A transition reports no drop, or one that is not IDLE_TIMEOUT, and then the parser waits. -/
theorem transition_drops {b : Byte} {now : Nat} {s t : State} (h : transition b now s = .next t) :
    t.drops = s.drops ∨
      t.phase = .waitStart ∧ ∃ d ∈ [Drop.badStart, .lenOversize, .lenZero, .badChecksum], t.drops = s.drops ++ [d] := by
  obtain ⟨-, rfl⟩ | ⟨-, rfl⟩ | ⟨-, rfl⟩ | ⟨-, -, rfl⟩ | ⟨-, body, -, ⟨-, rfl⟩ | ⟨-, k, p, -, -, rfl⟩⟩ :=
    transition_cases h
  · obtain ⟨-, e⟩ | ⟨-, e⟩ := waitStartByte_cases b s <;> rw [e]
    · exact .inl rfl
    · exact .inr ⟨rfl, .badStart, by simp, rfl⟩
  · exact .inl rfl
  · unfold lenLowByte
    obtain ⟨-, e⟩ | ⟨-, -, e⟩ | ⟨-, -, e⟩ := boundCheck_cases { s with bodyLen := lenOf (lenHi s.bodyLen) b } <;> rw [e]
    · exact .inr ⟨rfl, .lenOversize, by simp, rfl⟩
    · exact .inr ⟨rfl, .lenZero, by simp, rfl⟩
    · exact .inl rfl
  · rw [advanceCursor_rest]
    exact .inl rfl
  · exact .inr ⟨rfl, .badChecksum, by simp, rfl⟩
  · rw [dispatch_eq]
    exact .inl rfl

/-- A late byte, at the start of a step: the frame is dropped, and the byte is a marker or is dropped too. -/
theorem exec_rxByte_late {b : Byte} {now : Nat} {s : State} (hi : s.inited = true) (hl : isLate now s = true) :
    exec (.rxByte b now) s = .next
      (waitStartByte b { takeDrop .idleTimeout s.beginStep with tLastByte := now }) :=
  rxByte_late (s := s.beginStep) hi hl

/-- Everything one received byte can report. -/
theorem exec_rxByte_drops {b : Byte} {now : Nat} {s t : State} (h : exec (.rxByte b now) s = .next t) :
    (isLate now s = true ∧
      ((t.drops = [.idleTimeout] ∧ b = 0xAA ∧ t.phase = .readLenHigh) ∨
        (t.drops = [.idleTimeout, .badStart] ∧ t.phase = .waitStart))) ∨
    (isLate now s = false ∧ (t.drops = [] ∨
      t.phase = .waitStart ∧ ∃ d ∈ [Drop.badStart, .lenOversize, .lenZero, .badChecksum], t.drops = [d])) := by
  obtain ⟨-, ⟨hl, rfl⟩ | ⟨hl, ht⟩⟩ := rxByte_cases (s := s.beginStep) h
  · refine .inl ⟨hl, ?_⟩
    obtain ⟨hb, e⟩ | ⟨-, e⟩ := waitStartByte_cases b { takeDrop .idleTimeout s.beginStep with tLastByte := now } <;>
      rw [e]
    · exact .inl ⟨rfl, hb, rfl⟩
    · exact .inr ⟨rfl, rfl⟩
  · exact .inr ⟨hl, transition_drops ht⟩

/-- Settles O11: the late byte is interpreted in `WaitStart`, and IDLE_TIMEOUT is reported for it and for no other. -/
theorem lateByteDropsTheFrameAndHunts : Obligations.LateByteDropsTheFrameAndHunts := by
  unfold Obligations.LateByteDropsTheFrameAndHunts
  refine ⟨fun b now s hi hp hlate => ?_, fun b now s t h => ?_⟩
  · rw [exec_rxByte_late hi (isLate_of_lt hp hlate)]
    obtain ⟨hb, e⟩ | ⟨hb, e⟩ := waitStartByte_cases b { takeDrop .idleTimeout s.beginStep with tLastByte := now }
    · rw [e, if_pos hb]
      rfl
    · rw [e, if_neg hb]
      rfl
  · rw [← isLate_iff]
    obtain ⟨hl, ⟨hd, -⟩ | ⟨hd, -⟩⟩ | ⟨hl, hd | ⟨-, d, hmem, hd⟩⟩ := exec_rxByte_drops h <;> rw [hl, hd]
    · simp
    · simp
    · simp
    · have hne : Drop.idleTimeout ≠ d := by
        rintro rfl
        simp at hmem
      simp [hne]

/-- Settles O20: one drop at most in a transition, and one before it only for a late byte, which meets `WaitStart`. -/
theorem aByteReportsAtMostTwoDrops : Obligations.AByteReportsAtMostTwoDrops := by
  unfold Obligations.AByteReportsAtMostTwoDrops
  intro b now s t h
  obtain ⟨-, ⟨hd, -⟩ | ⟨hd, -⟩⟩ | ⟨-, hd | ⟨-, d, hmem, hd⟩⟩ := exec_rxByte_drops h <;> rw [hd]
  · simp
  · simp
  · simp
  · simp only [List.mem_cons, List.not_mem_nil, or_false] at hmem
    rcases hmem with rfl | rfl | rfl | rfl <;> simp

/-- Settles O18: a parser that meets R29 answers, and each drop but that of a late marker leaves it waiting. -/
theorem receivingAByteAlwaysAnswers : Obligations.ReceivingAByteAlwaysAnswers := by
  unfold Obligations.ReceivingAByteAlwaysAnswers
  intro b now s hinv hi
  obtain ⟨t, ht⟩ := rxByte_answers (s := s.beginStep) hi hinv.parser b now
  refine ⟨t, ht, ?_⟩
  obtain ⟨-, h | ⟨-, hp⟩⟩ | ⟨-, hd | ⟨hp, -⟩⟩ := exec_rxByte_drops ht
  · exact .inr (.inr h)
  · exact .inr (.inl hp)
  · exact .inl hd
  · exact .inr (.inl hp)

/-! ### The length field (R144, R145) -/

/-- Settles O12: the low byte is 0, and nothing is checked. -/
theorem lengthHighByteIsStored : Obligations.LengthHighByteIsStored := by
  unfold Obligations.LengthHighByteIsStored
  intro b now s hi hp ht
  have hlen : lenOf b 0x00 = BitVec.ofNat 16 (b.toNat * 256) := by simp [lenOf]
  rw [exec_rxByte_onTime hi (isLate_of_elapsed_le ht), transition_readLenHigh (by exact hp), lenHighByte, hlen]
  rfl

/-- The second length byte replaces bits 7:0. -/
theorem lenOf_lenHi (len : BitVec 16) (b : Byte) :
    lenOf (lenHi len) b = BitVec.ofNat 16 (len.toNat / 256 * 256 + b.toNat) := by
  have hlt := len.isLt
  rw [lenOf, lenHi, BitVec.toNat_ofNat, Nat.mod_eq_of_lt (by omega : len.toNat / 256 < 2 ^ 8)]

/-- Settles O13: the three outcomes of the bound check on the complete length. -/
theorem lengthLowByteIsBoundChecked : Obligations.LengthLowByteIsBoundChecked := by
  unfold Obligations.LengthLowByteIsBoundChecked
  intro b now s len hi hp ht hlen
  have hb := b.isLt
  have hs := s.bodyLen.isLt
  have hnat : (BitVec.ofNat 16 len).toNat = len := Nat.mod_eq_of_lt (by omega)
  rw [exec_rxByte_onTime hi (isLate_of_elapsed_le ht), transition_readLenLow (by exact hp), lenLowByte]
  dsimp only [beginStep_bodyLen]
  rw [lenOf_lenHi, ← hlen]
  obtain ⟨hlong, e⟩ | ⟨hlong, hzero, e⟩ | ⟨hlong, hzero, e⟩ := boundCheck_cases
    { s.beginStep with tLastByte := now, bodyLen := BitVec.ofNat 16 len } <;>
    rw [e] <;> dsimp only at hlong <;> rw [hnat] at hlong
  · rw [if_pos (by exact hlong)]
    rfl
  · rw [if_neg (by exact hlong), if_pos (hnat.symm.trans hzero)]
    rfl
  · rw [if_neg (by exact hlong), if_neg fun h => hzero (hnat.trans h)]
    rfl

/-! ### The checksum byte (R147 to R149) -/

/-- Settles O15: the stored body is read back, and its fold is the byte received. -/
theorem matchingChecksumAcceptsTheFrame : Obligations.MatchingChecksumAcceptsTheFrame := by
  unfold Obligations.MatchingChecksumAcceptsTheFrame
  intro b now s kind payload hi hp ht hmax hlen hbody hb
  rw [exec_rxByte_onTime hi (isLate_of_elapsed_le ht), transition_readChecksum (by exact hp),
    checksumByte_eq (s := { s.beginStep with tLastByte := now }) b now hmax hlen hbody, if_pos hb]
  rfl

/-- Settles O16: the stored body is read back, and its fold is another byte. -/
theorem wrongChecksumDropsTheFrame : Obligations.WrongChecksumDropsTheFrame := by
  unfold Obligations.WrongChecksumDropsTheFrame
  intro b now s body hi hp ht hmax hlen hbody hb
  rw [exec_rxByte_onTime hi (isLate_of_elapsed_le ht), transition_readChecksum (by exact hp), checksumByte,
    bufSlice_body (s := { s.beginStep with tLastByte := now }) hmax hlen hbody, onRead, if_neg hb]
  rfl

/-! ### Accesses to BUF -/

/-- A block read stops at the first byte that cannot be read. -/
theorem bufBytes_error {s : State} {f : Fault} {a k n : Nat} (hk : k < n)
    (hok : ∀ j, j < k → ∃ v, bufRead s (a + j) = .ok v) (hbad : bufRead s (a + k) = .error f) :
    bufBytes s a n = .error f := by
  induction k generalizing a n with
  | zero =>
    obtain ⟨n, rfl⟩ := Nat.exists_eq_add_one.2 hk
    rw [bufBytes, show bufRead s a = .error f from hbad]
  | succ k ih =>
    obtain ⟨n, rfl⟩ := Nat.exists_eq_add_one.2 (Nat.zero_lt_of_lt hk)
    obtain ⟨v, hv⟩ := hok 0 (Nat.succ_pos k)
    have hrest : bufBytes s (a + 1) n = .error f := by
      refine ih (by omega) (fun j hj => ?_) (by rwa [Nat.add_assoc, Nat.add_comm 1 k])
      rw [Nat.add_assoc, Nat.add_comm 1 j]
      exact hok (j + 1) (by omega)
    rw [bufBytes, show bufRead s a = .ok v from hv]
    dsimp only
    rw [hrest]

/-- A checksum over a body whose first unreadable byte is at index `a` stops there. -/
theorem checksumByte_fault {s : State} {f : Fault} {a : Nat} (b : Byte) (now : Nat) (ha : a < s.bodyLen.toNat)
    (hm : a ≤ s.cfg.maxBody) (hok : ∀ j, j < a → (s.buf.read j).isSome) (hbad : bufRead s a = .error f) :
    checksumByte b now s = .fault f := by
  have hslice : bufSlice s 0 s.bodyLen.toNat = .error f := by
    refine bufBytes_error (k := a) (by omega) (fun j hj => ?_) (by rwa [Nat.zero_add])
    obtain ⟨v, hv⟩ := Option.isSome_iff_exists.1 (hok j hj)
    exact ⟨v, by rw [Nat.zero_add]; exact bufRead_ok (by omega) hv⟩
  rw [checksumByte, hslice, onRead]

/-- Settles O17: the store tests the index, and the checksum reads the body from index 0 up. -/
theorem accessesOutsideBufFault : Obligations.AccessesOutsideBufFault := by
  unfold Obligations.AccessesOutsideBufFault
  intro b now s hi ht
  rw [exec_rxByte_onTime hi (isLate_of_elapsed_le ht)]
  refine ⟨fun hp hcur => ?_, fun a hp ha hok => ⟨fun hm hnone => ?_, fun hm => ?_⟩⟩
  · rw [transition_readBody (by exact hp), bodyByte, bufWrite, if_pos (by exact hcur)]
    rfl
  · rw [transition_readChecksum (by exact hp)]
    exact checksumByte_fault b now ha hm.le hok (bufRead_noValue hm hnone)
  · rw [transition_readChecksum (by exact hp)]
    exact checksumByte_fault b now ha hm.le hok (if_pos hm.ge)

/-- Settles O19: a byte is stored at the cursor only if the cursor is below `MAX_BODY`. -/
theorem noReceivedByteIsStoredBeyondBuf : Obligations.NoReceivedByteIsStoredBeyondBuf := by
  unfold Obligations.NoReceivedByteIsStoredBeyondBuf
  intro bs now s t h a ha
  refine (rxAll_induction (motive := fun u => u.cfg = s.cfg ∧ u.buf.read a = s.buf.read a) (s := s.beginStep) ?_
    ⟨rfl, rfl⟩ h).2
  intro b now u v ⟨hcfg, hread⟩ hv
  refine ⟨(rxByte_keeps hv).1.trans hcfg, ?_⟩
  obtain hbuf | ⟨-, hcur, hbuf⟩ := rxByte_buf hv <;> rw [hbuf]
  · exact hread
  · rw [hcfg] at hcur
    rw [read_write_other _ _ _ _ (by omega), hread]

end Sys2Proof.Proofs
end

section
/-! The operations that are one update: power-on, `INIT`, `NOP`, the query, the sends and the two checks, and what is
refused before `INIT` (45_system.md R220 to R224, 42_session.md R171, R173, 43_dispatcher.md R189 to R191). -/

namespace Sys2Proof.Proofs

open Sys2Proof.Machine Sys2Proof.Laws

/-- Settles O1: the fields of the reset state. -/
theorem resetLeavesThePowerOnState : Obligations.ResetLeavesThePowerOnState := by
  unfold Obligations.ResetLeavesThePowerOnState
  exact ⟨rfl, rfl, rfl, fun _ => rfl⟩

/-- Settles O2: `INIT` is one update, with the raw level of each line as its polarity. -/
theorem initSetsEveryRegister : Obligations.InitSetsEveryRegister := by
  unfold Obligations.InitSetsEveryRegister
  intro levels now s
  have hlines : calibratedLines s.cfg levels now =
      ⟨⟨levels[0], false, false, 1, elapsed s.cfg now s.cfg.quietMs⟩,
        ⟨levels[1], false, false, 1, elapsed s.cfg now s.cfg.quietMs⟩,
        ⟨levels[2], false, false, 1, elapsed s.cfg now s.cfg.quietMs⟩,
        ⟨levels[3], false, false, 1, elapsed s.cfg now s.cfg.quietMs⟩⟩ := by
    simp only [calibratedLines, rawLevel_eq]
    rfl
  rw [← hlines]
  rfl

/-- Settles O3: `NOP` is the start of a step and nothing else. -/
theorem nopChangesNothing : Obligations.NopChangesNothing := by
  unfold Obligations.NopChangesNothing
  exact fun _ => rfl

/-- Settles O4: each of the refused operations has a part that requires `INIT`. -/
theorem operationsBeforeInitAreRefused : Obligations.OperationsBeforeInitAreRefused := by
  unfold Obligations.OperationsBeforeInitAreRefused
  intro s b status kind bs tail len levels now index pressed rx tick silence beat hi
  refine ⟨fun i hmem => ?_, fun i hmem => ?_⟩ <;>
    simp only [List.mem_cons, List.not_mem_nil, or_false] at hmem
  · have hcycle : isCycle i = true ∧ ¬(receivedBytes s.cfg i = [] ∧ tickOf i = none ∧ silenceOf i = none ∧
        beatOf i = none) := by
      rcases hmem with rfl | rfl | rfl | rfl | rfl | rfl | rfl | rfl | rfl | rfl | rfl | rfl | rfl | rfl | rfl | rfl |
        rfl <;> simp [isCycle, receivedBytes, wireBytes, tickOf, silenceOf, beatOf]
    obtain ⟨hc, hparts⟩ := hcycle
    obtain h | ⟨hrx, htick, hsilence, hbeat, -⟩ := exec_cycle_beforeInit hc hi
    · exact h
    · exact absurd ⟨hrx, htick, hsilence, hbeat⟩ hparts
  · rcases hmem with rfl | rfl | rfl <;> exact ⟨_, rfl⟩

/-- Settles O21: a frame row is the burst of its bytes. -/
theorem aFrameIsTheReceptionOfItsBytes : Obligations.AFrameIsTheReceptionOfItsBytes := by
  unfold Obligations.AFrameIsTheReceptionOfItsBytes
  exact fun _ _ _ _ _ => ⟨rfl, rfl, rfl, rfl, rfl, rfl, rfl, rfl⟩

/-- Settles O40: the query is one answer. -/
theorem queryAnswersConnected : Obligations.QueryAnswersConnected := by
  unfold Obligations.QueryAnswersConnected
  exact fun _ => rfl

/-- Settles O54: every operation begins by clearing the outputs. -/
theorem outputsAreNeverRead : Obligations.OutputsAreNeverRead := by
  unfold Obligations.OutputsAreNeverRead
  intro i s es ds r
  cases i <;> rfl

/-! ### The two checks -/

/-- Settles O36: the test is that of R171, and the notification has no bytes for the TX stream. -/
theorem silenceCheckDisconnectsAfterSilence : Obligations.SilenceCheckDisconnectsAfterSilence := by
  unfold Obligations.SilenceCheckDisconnectsAfterSilence
  intro now s hi
  have htest : (s.connected && silenceExpired s.cfg now s.tLastValid) = true ↔
      s.connected = true ∧ s.cfg.silenceMs < elapsed s.cfg now s.tLastValid := by
    rw [Bool.and_eq_true, silenceExpired_iff]
  rw [exec, execSessionCheck, requireInit_true hi, silenceCheck]
  by_cases h : s.connected = true ∧ s.cfg.silenceMs < elapsed s.cfg now s.tLastValid
  · rw [if_pos (by exact htest.2 h), if_pos h]
    simp [State.emit, State.beginStep, Effect.txBytes]
  · rw [if_neg (by exact mt htest.1 h), if_neg h]
    rfl

/-! ### The sends -/

/-- The heartbeat's frame: marker, length 2, kind, status, checksum (R103, R190). -/
theorem frameOf_heartbeat (kind status : Byte) :
    frameOf kind (heartbeatPayload status) = [0xAA#8, 0x00, 0x02, kind, status, kind ^^^ status] := by
  simp [frameOf, wireBytes, heartbeatPayload, lenHi, lenLo, xorFold, Config.marker]

/-- The button event's frame: marker, length 3, kind, line, state, checksum (R102, R189). -/
theorem frameOf_button (kind : Byte) (index : Fin 4) (pressed : Bool) :
    frameOf kind (buttonPayload index pressed) =
      [0xAA#8, 0x00, 0x03, kind, BitVec.ofNat 8 index.val, if pressed then 0x01#8 else 0x00#8,
        kind ^^^ BitVec.ofNat 8 index.val ^^^ (if pressed then 0x01#8 else 0x00#8)] := by
  simp [frameOf, wireBytes, buttonPayload, lenHi, lenLo, xorFold, Config.marker]

/-- Settles O41: the send is one effect, the frame written out. -/
theorem buttonEventIsSentAsOneFrame : Obligations.ButtonEventIsSentAsOneFrame := by
  unfold Obligations.ButtonEventIsSentAsOneFrame
  intro index pressed s v frame hv hframe
  rw [hframe, hv, ← frameOf_button]
  rfl

/-- Settles O42: the send is one effect, the frame written out. -/
theorem heartbeatIsSentAsOneFrame : Obligations.HeartbeatIsSentAsOneFrame := by
  unfold Obligations.HeartbeatIsSentAsOneFrame
  intro status s frame hframe
  rw [hframe, ← frameOf_heartbeat]
  rfl

/-- Settles O43: when due, the heartbeat of O42 with the timer restarted. -/
theorem heartbeatCheckSendsWhenDue : Obligations.HeartbeatCheckSendsWhenDue := by
  unfold Obligations.HeartbeatCheckSendsWhenDue
  intro now status s frame hi hframe
  rw [hframe, ← frameOf_heartbeat, exec, execHeartbeatCheck, requireInit_true hi, beatCheck]
  by_cases h : s.cfg.heartbeatMs ≤ elapsed s.cfg now s.tLastHb
  · rw [if_pos (by exact (heartbeatDue_iff _ _ _).2 h), if_pos h]
    rfl
  · rw [if_neg (by exact mt (heartbeatDue_iff _ _ _).1 h), if_neg h]
    rfl

end Sys2Proof.Proofs
end

section
/-! What an operation leaves alone, what it emits, and what it does to the session (20_memory.md R63, R68, 42_session.md
R170 to R172, 45_system.md R227, R228). -/

namespace Sys2Proof.Proofs

open Sys2Proof.Machine Sys2Proof.Laws

/-! ### The parts of a poll cycle and what they write -/

theorem cycleTick_rest {tick : Option (BitVec 4 × Nat)} {s t : State} (h : cycleTick tick s = .next t) :
    t = { s with lines := t.lines, tx := t.tx, effects := t.effects } ∧ (tick = none → t.lines = s.lines) := by
  obtain ⟨-, rfl⟩ | ⟨levels, now, htick, -, rfl⟩ := cycleTick_cases h
  · exact ⟨rfl, fun _ => rfl⟩
  · exact ⟨sampleLines_rest levels now s, fun hn => by simp [hn] at htick⟩

theorem cycleSilence_rest {silence : Option Nat} {s t : State} (h : cycleSilence silence s = .next t) :
    t = { s with connected := t.connected, effects := t.effects } ∧ (silence = none → t.connected = s.connected) := by
  obtain ⟨-, rfl⟩ | ⟨now, hsilence, -, rfl⟩ := cycleSilence_cases h
  · exact ⟨rfl, fun _ => rfl⟩
  · exact ⟨silenceCheck_rest now s, fun hn => by simp [hn] at hsilence⟩

theorem cycleBeat_rest {beat : Option (Nat × Byte)} {s t : State} (h : cycleBeat beat s = .next t) :
    t = { s with tLastHb := t.tLastHb, tx := t.tx, effects := t.effects } ∧
      (beat = none → t.tLastHb = s.tLastHb) := by
  obtain ⟨-, rfl⟩ | ⟨now, status, hbeat, -, rfl⟩ := cycleBeat_cases h
  · exact ⟨rfl, fun _ => rfl⟩
  · exact ⟨beatCheck_rest now status s, fun hn => by simp [hn] at hbeat⟩

/-- After its received bytes a poll cycle writes the lines in its tick, `connected` in its silence check, the heartbeat
timer in its heartbeat check, and the outputs. -/
theorem execPollCycle_rest {rx : List (Byte × Nat)} {tick : Option (BitVec 4 × Nat)} {silence : Option Nat}
    {beat : Option (Nat × Byte)} {s t : State} (h : execPollCycle rx tick silence beat s = .next t) :
    ∃ u, rxAll rx s.beginStep = .next u ∧
      t = { u with
        lines := t.lines, tx := t.tx, effects := t.effects, connected := t.connected, tLastHb := t.tLastHb } ∧
      (tick = none → t.lines = u.lines) ∧ (silence = none → t.connected = u.connected) ∧
      (beat = none → t.tLastHb = u.tLastHb) := by
  obtain ⟨u, v, w, h1, h2, h3, h4⟩ := execPollCycle_cases h
  obtain ⟨hv, hlines⟩ := cycleTick_rest h2
  obtain ⟨hw, hconn⟩ := cycleSilence_rest h3
  obtain ⟨ht, hhb⟩ := cycleBeat_rest h4
  refine ⟨u, h1, ?_, ?_, ?_, ?_⟩
  · rw [ht, hw, hv]
  · rw [ht, hw]
    exact hlines
  · rw [ht]
    rw [hv] at hconn
    exact hconn
  · rw [hw, hv] at hhb
    exact hhb

/-- Settles O53: only `INIT` could write them, and it does not. -/
theorem noOperationChangesTheParameter : Obligations.NoOperationChangesTheParameter := by
  unfold Obligations.NoOperationChangesTheParameter
  intro i s t h
  obtain ⟨-, hc⟩ | ⟨-, ⟨bytes, rfl⟩ | ⟨r, rfl⟩⟩ | ⟨levels, now, -, rfl⟩ := exec_cases h
  · obtain ⟨u, hu, ht, -⟩ := execPollCycle_rest hc
    obtain ⟨hcfg, -, -, -, -, hpending, -⟩ := rxAll_keeps hu
    rw [ht]
    exact ⟨hcfg, hpending⟩
  · exact ⟨rfl, rfl⟩
  · exact ⟨rfl, rfl⟩
  · exact ⟨rfl, rfl⟩

/-- Settles O25: a receiving operation is the reception of its bytes. -/
theorem receivingKeepsTheOtherParts : Obligations.ReceivingKeepsTheOtherParts := by
  unfold Obligations.ReceivingKeepsTheOtherParts
  intro i s t hreceives h
  have hrx := (exec_receivesOnly hreceives s).symm.trans h
  obtain ⟨hcfg, hinited, hhb, hlines, htx, hpending, hresult⟩ := rxAll_keeps hrx
  refine ⟨hcfg, hinited, hhb, hlines, htx, hpending, hresult, ?_⟩
  rintro b now rfl
  obtain ⟨-, -, -, -, -, -, -, hbyte⟩ := rxByte_keeps (s := s.beginStep) h
  exact hbyte

/-- Settles O27: without received bytes the cycle's other parts find the state of the step's start. -/
theorem aPollCycleTouchesOnlyItsParts : Obligations.APollCycleTouchesOnlyItsParts := by
  unfold Obligations.APollCycleTouchesOnlyItsParts
  intro rx tick silence beat s t h
  obtain ⟨u, hu, ht, hlines, hconn, hhb⟩ := execPollCycle_rest h
  obtain ⟨hcfg, hinited, huhb, hulines, -, hpending, hresult⟩ := rxAll_keeps hu
  refine ⟨?_, ?_, ?_, ?_, fun hn => (hlines hn).trans hulines, fun hn => (hhb hn).trans huhb, ?_⟩
  · rw [ht]; exact hcfg
  · rw [ht]; exact hinited
  · rw [ht]; exact hpending
  · rw [ht]; exact hresult
  · rintro rfl
    cases hu
    refine ⟨?_, ?_, ?_, ?_, ?_, ?_, hconn⟩ <;> rw [ht] <;> rfl

/-! ### BUF (R68) -/

theorem storeIndices_cons {b : Byte} {now : Nat} {s u : State} (h : rxByte b now s = .next u)
    (rest : List (Byte × Nat)) :
    storeIndices ((b, now) :: rest) s = (storeIndex now s).toList ++ storeIndices rest u := by
  rw [storeIndices, h]

/-- Received bytes change BUF only at the indices they are stored to. -/
theorem rxAll_buf {rx : List (Byte × Nat)} {s t : State} {a : Nat} (h : rxAll rx s = .next t)
    (ha : a ∉ storeIndices rx s) : t.buf.read a = s.buf.read a := by
  induction rx generalizing s with
  | nil =>
    cases h
    rfl
  | cons p rest ih =>
    obtain ⟨u, hu, hk⟩ := andThen_eq_next h
    rw [storeIndices_cons hu, List.mem_append, not_or] at ha
    obtain ⟨hhere, hrest⟩ := ha
    rw [ih hk hrest]
    obtain hbuf | ⟨hindex, -, hbuf⟩ := rxByte_buf hu <;> rw [hbuf]
    exact read_write_other _ _ _ _ fun e => hhere (by simp [hindex, e])

/-- Settles O26: no part but a received byte writes BUF. -/
theorem bufChangesOnlyWhereABodyByteIsStored : Obligations.BufChangesOnlyWhereABodyByteIsStored := by
  unfold Obligations.BufChangesOnlyWhereABodyByteIsStored
  intro i s t a h ha
  obtain ⟨-, hc⟩ | ⟨-, ⟨bytes, rfl⟩ | ⟨r, rfl⟩⟩ | ⟨levels, now, -, rfl⟩ := exec_cases h
  · obtain ⟨u, hu, ht, -⟩ := execPollCycle_rest hc
    rw [ht]
    exact rxAll_buf (s := s.beginStep) (t := u) hu ha
  · rfl
  · rfl
  · rfl

/-! ### Effects -/

/-- From `s` to `t` some effects with `P` were emitted, and the TX stream has grown by their bytes (R63). -/
def Emits (P : Effect → Prop) (s t : State) : Prop :=
  ∃ es, t.effects = s.effects ++ es ∧ t.tx = s.tx ++ es.flatMap Effect.txBytes ∧ ∀ e ∈ es, P e

theorem Emits.refl {P : Effect → Prop} (s : State) : Emits P s s := ⟨[], by simp, by simp, nofun⟩

theorem Emits.trans {P : Effect → Prop} {s t u : State} (h1 : Emits P s t) (h2 : Emits P t u) : Emits P s u := by
  obtain ⟨es, he, hx, hp⟩ := h1
  obtain ⟨fs, hf, hy, hq⟩ := h2
  refine ⟨es ++ fs, by rw [hf, he, List.append_assoc], by rw [hy, hx, List.flatMap_append, List.append_assoc], ?_⟩
  intro e hmem
  exact (List.mem_append.1 hmem).elim (hp e) (hq e)

theorem Emits.weaken {P Q : Effect → Prop} {s t : State} (h : Emits P s t) (hpq : ∀ e, P e → Q e) : Emits Q s t := by
  obtain ⟨es, he, hx, hp⟩ := h
  exact ⟨es, he, hx, fun e hmem => hpq e (hp e hmem)⟩

theorem Emits.mem {P : Effect → Prop} {s t : State} (h : Emits P s t) {e : Effect} (he : e ∈ s.effects) :
    e ∈ t.effects := by
  obtain ⟨es, hes, -⟩ := h
  rw [hes]
  exact List.mem_append_left es he

theorem emits_emit {P : Effect → Prop} {e : Effect} (h : P e) (s : State) : Emits P s (s.emit e) :=
  ⟨[e], rfl, by simp, by simpa using h⟩

/-- An effect other than the disconnect notification. -/
def notNotice (e : Effect) : Prop := e ≠ .bridgeDisconnected

theorem notNotice_tx (bytes : List Byte) : notNotice (.tx bytes) := nofun

theorem rxByte_emits {b : Byte} {now : Nat} {s t : State} (h : rxByte b now s = .next t) : Emits notNotice s t := by
  obtain ⟨-, ⟨-, rfl⟩ | ⟨-, ht⟩⟩ := rxByte_cases h
  · rw [waitStartByte_rest]
    exact .refl s
  · obtain ⟨-, rfl⟩ | ⟨-, rfl⟩ | ⟨-, rfl⟩ | ⟨-, -, rfl⟩ | ⟨-, body, -, ⟨-, rfl⟩ | ⟨-, kind, payload, -, -, rfl⟩⟩ :=
      transition_cases ht
    · rw [waitStartByte_rest]
      exact .refl s
    · exact .refl s
    · rw [lenLowByte_rest]
      exact .refl s
    · rw [advanceCursor_rest]
      exact .refl s
    · exact .refl s
    · rw [dispatch_eq]
      have hbytes : (actionOf s.cfg kind payload).flatMap Effect.txBytes = [] :=
        List.flatMap_eq_nil_iff.2 fun e he => (actionOf_mem he).1
      exact ⟨actionOf s.cfg kind payload, rfl, by simp [hbytes], fun e he => (actionOf_mem he).2⟩

theorem stepLine_emits (i : Fin 4) (levels : BitVec 4) (now : Nat) (s : State) :
    Emits notNotice s (stepLine i levels now s) := by
  unfold stepLine
  dsimp only
  split
  · exact emits_emit (notNotice_tx _) { s with lines := _ }
  · exact .refl s

theorem sampleLines_emits (levels : BitVec 4) (now : Nat) (s : State) :
    Emits notNotice s (sampleLines levels now s) :=
  (((stepLine_emits 0 levels now s).trans (stepLine_emits 1 levels now _)).trans (stepLine_emits 2 levels now _)).trans
    (stepLine_emits 3 levels now _)

/-- The silence check disconnects, with its one notification, or changes nothing (R171). -/
theorem silenceCheck_cases (now : Nat) (s : State) :
    (s.connected = true ∧ s.cfg.silenceMs < elapsed s.cfg now s.tLastValid ∧
      silenceCheck now s = { s with connected := false }.emit .bridgeDisconnected) ∨ silenceCheck now s = s := by
  unfold silenceCheck
  split
  · rename_i h
    rw [Bool.and_eq_true, silenceExpired_iff] at h
    exact .inl ⟨h.1, h.2, rfl⟩
  · exact .inr rfl

theorem silenceCheck_emits (now : Nat) (s : State) : Emits (fun _ => True) s (silenceCheck now s) := by
  obtain ⟨-, -, e⟩ | e := silenceCheck_cases now s <;> rw [e]
  · exact emits_emit trivial { s with connected := false }
  · exact .refl s

theorem beatCheck_emits (now : Nat) (status : Byte) (s : State) : Emits notNotice s (beatCheck now status s) := by
  unfold beatCheck
  split
  · exact emits_emit (notNotice_tx _) { s with tLastHb := now }
  · exact .refl s

/-- Settles O44: every part extends the stream by the bytes of what it emits. -/
theorem txStreamIsTheBytesOfTheEffects : Obligations.TxStreamIsTheBytesOfTheEffects := by
  unfold Obligations.TxStreamIsTheBytesOfTheEffects
  intro i s t h
  have hany : ∀ {u v : State}, Emits notNotice u v → Emits (fun _ => True) u v := fun hq => hq.weaken fun _ _ => trivial
  obtain ⟨es, he, hx, -⟩ : Emits (fun _ => True) s.beginStep t := by
    refine exec_induction (motive := Emits (fun _ => True) s.beginStep) ?_ ?_ ?_ ?_ ?_ ?_ ?_ (.refl _) h
    · exact fun b now u v _ hu hv => hu.trans (hany (rxByte_emits hv))
    · exact fun levels now u _ hu => hu.trans (hany (sampleLines_emits levels now u))
    · exact fun now u _ hu => hu.trans (silenceCheck_emits now u)
    · exact fun now status u _ hu => hu.trans (hany (beatCheck_emits now status u))
    · exact fun bytes u hu => hu.trans (emits_emit trivial u)
    · exact fun r u hu => hu
    · exact fun levels now _ => .refl s.beginStep
  rw [he, hx]
  rfl

/-! ### The session -/

/-- Effects without the notification leave its count as it was. -/
theorem Emits.count_notice {s t : State} (h : Emits notNotice s t) :
    t.effects.count .bridgeDisconnected = s.effects.count .bridgeDisconnected := by
  obtain ⟨es, he, -, hp⟩ := h
  rw [he, List.count_append, List.count_eq_zero.2 fun hmem => hp _ hmem rfl, Nat.add_zero]

theorem rxAll_emits {rx : List (Byte × Nat)} {s t : State} (h : rxAll rx s = .next t) : Emits notNotice s t :=
  rxAll_induction (motive := Emits notNotice s) (fun _ _ _ _ hu hv => hu.trans (rxByte_emits hv)) (.refl s) h

theorem cycleTick_emits {tick : Option (BitVec 4 × Nat)} {s t : State} (h : cycleTick tick s = .next t) :
    Emits notNotice s t := by
  obtain ⟨-, rfl⟩ | ⟨levels, now, -, -, rfl⟩ := cycleTick_cases h
  · exact .refl _
  · exact sampleLines_emits levels now s

theorem cycleSilence_emits {silence : Option Nat} {s t : State} (h : cycleSilence silence s = .next t) :
    Emits (fun _ => True) s t := by
  obtain ⟨-, rfl⟩ | ⟨now, -, -, rfl⟩ := cycleSilence_cases h
  · exact .refl _
  · exact silenceCheck_emits now s

theorem cycleBeat_emits {beat : Option (Nat × Byte)} {s t : State} (h : cycleBeat beat s = .next t) :
    Emits notNotice s t := by
  obtain ⟨-, rfl⟩ | ⟨now, status, -, -, rfl⟩ := cycleBeat_cases h
  · exact .refl _
  · exact beatCheck_emits now status s

/-- The session in a poll cycle: after the received bytes either nothing is notified and the session stays, or the
silence check disconnects a session that is too old, with one notification. -/
theorem execPollCycle_session {rx : List (Byte × Nat)} {tick : Option (BitVec 4 × Nat)} {silence : Option Nat}
    {beat : Option (Nat × Byte)} {s t : State} (h : execPollCycle rx tick silence beat s = .next t) :
    ∃ u, rxAll rx s.beginStep = .next u ∧ t.tLastValid = u.tLastValid ∧
      ((t.effects.count .bridgeDisconnected = 0 ∧ t.connected = u.connected) ∨
        (t.effects.count .bridgeDisconnected = 1 ∧ t.connected = false ∧ u.connected = true ∧
          ∃ now, silence = some now ∧ s.cfg.silenceMs < elapsed s.cfg now u.tLastValid)) := by
  obtain ⟨u, v, w, h1, h2, h3, h4⟩ := execPollCycle_cases h
  obtain ⟨hv, -⟩ := cycleTick_rest h2
  obtain ⟨hw, -⟩ := cycleSilence_rest h3
  obtain ⟨ht, -⟩ := cycleBeat_rest h4
  have hucfg : u.cfg = s.cfg := (rxAll_keeps h1).1
  have hvconn : v.connected = u.connected := by rw [hv]
  have hvvalid : v.tLastValid = u.tLastValid := by rw [hv]
  have hvcfg : v.cfg = s.cfg := by rw [hv]; exact hucfg
  have htconn : t.connected = w.connected := by rw [ht]
  have htcount : t.effects.count .bridgeDisconnected = w.effects.count .bridgeDisconnected :=
    (cycleBeat_emits h4).count_notice
  have hvcount : v.effects.count .bridgeDisconnected = 0 :=
    (cycleTick_emits h2).count_notice.trans (rxAll_emits h1).count_notice
  refine ⟨u, h1, by rw [ht, hw]; exact hvvalid, ?_⟩
  obtain ⟨-, rfl⟩ | ⟨now, hsilence, -, rfl⟩ := cycleSilence_cases h3
  · exact .inl ⟨htcount.trans hvcount, htconn.trans hvconn⟩
  · obtain ⟨hconn, hold, e⟩ | e := silenceCheck_cases now v <;> rw [e] at htcount htconn
    · refine .inr ⟨?_, htconn, hvconn ▸ hconn, now, hsilence, hvvalid ▸ hvcfg ▸ hold⟩
      rw [htcount, emit_effects, List.count_append, hvcount]
      rfl
    · exact .inl ⟨htcount.trans hvcount, htconn.trans hvconn⟩

/-- After a sequence of received bytes the session is that of the last valid frame completed in it, or, if there is
none, as before. -/
theorem rxAll_session {rx : List (Byte × Nat)} {s t : State} (h : rxAll rx s = .next t) :
    (∃ pre b tv post v body, rx = pre ++ (b, tv) :: post ∧ rxAll pre s = .next v ∧ completesFrame b tv v body ∧
      t.tLastValid = tv ∧ t.connected = true) ∨
    (t.tLastValid = s.tLastValid ∧ t.connected = s.connected) := by
  induction rx generalizing s with
  | nil =>
    cases h
    exact .inr ⟨rfl, rfl⟩
  | cons p rest ih =>
    obtain ⟨b, now⟩ := p
    obtain ⟨u, hu, hk⟩ := andThen_eq_next h
    obtain ⟨pre, b', tv, post, v, body, rfl, hpre, hlast⟩ | ⟨hvalid, hconn⟩ := ih hk
    · exact .inl ⟨(b, now) :: pre, b', tv, post, v, body, rfl, by rw [rxAll_cons, hu, andThen_next, hpre], hlast⟩
    · obtain ⟨body, hlast, hvalid', hconn'⟩ | ⟨hvalid', hconn'⟩ := rxByte_session hu
      · exact .inl ⟨[], b, now, rest, s, body, rfl, rfl, hlast, hvalid.trans hvalid', hconn.trans hconn'⟩
      · exact .inr ⟨hvalid.trans hvalid', hconn.trans hconn'⟩

/-- Of the operations made of receptions, ticks and checks only `POLL_CYCLE` both receives and checks the silence. -/
theorem received_or_silence {i : Instr} (hcycle : ∀ rx tick silence beat, i ≠ .pollCycle rx tick silence beat)
    (c : Cfg) : receivedBytes c i = [] ∨ silenceOf i = none := by
  cases i with
  | pollCycle rx tick silence beat => exact absurd rfl (hcycle rx tick silence beat)
  | sessionCheck => exact .inl rfl
  | _ => exact .inr rfl

/-- Received bytes never take `connected` away. -/
theorem rxAll_connected {rx : List (Byte × Nat)} {s t : State} (h : rxAll rx s = .next t) (hs : s.connected = true) :
    t.connected = true := by
  obtain ⟨-, -, -, -, -, -, -, -, -, -, hconn⟩ | ⟨-, hconn⟩ := rxAll_session h
  · exact hconn
  · exact hconn.trans hs

/-- Settles O37: only the silence check notifies, at most once, and of the other parts only received bytes change
`connected`, to 1. -/
theorem oneNotificationPerDisconnect : Obligations.OneNotificationPerDisconnect := by
  unfold Obligations.OneNotificationPerDisconnect
  intro i s t h
  obtain ⟨-, hc⟩ | ⟨-, ⟨bytes, rfl⟩ | ⟨r, rfl⟩⟩ | ⟨levels, now, hi, rfl⟩ := exec_cases h
  · obtain ⟨u, hu, -, ⟨hcount, hconn⟩ | ⟨hcount, hconn, huconn, now, hsilence, -⟩⟩ := execPollCycle_session hc
    · refine ⟨by omega, fun _ _ => ?_⟩
      have hnot := List.count_eq_zero.1 hcount
      refine ⟨fun hmem => absurd hmem hnot, fun ⟨hs, ht⟩ => ?_⟩
      rw [hconn, rxAll_connected hu hs] at ht
      cases ht
    · refine ⟨by omega, fun _ hcycle => ?_⟩
      have hmem : .bridgeDisconnected ∈ t.effects := List.count_pos_iff.1 (by omega)
      refine ⟨fun _ => ⟨?_, hconn⟩, fun _ => hmem⟩
      obtain hrx | hnone := received_or_silence hcycle s.cfg
      · rw [hrx] at hu
        cases hu
        exact huconn
      · rw [hnone] at hsilence
        cases hsilence
  · simp
  · simp
  · exact ⟨Nat.zero_le 1, fun hinit _ => absurd hi (hinit levels now)⟩

/-- Settles O38: a cycle can raise `connected` only in its received bytes, at the last byte of a valid frame. -/
theorem onlyAValidFrameRaisesConnected : Obligations.OnlyAValidFrameRaisesConnected := by
  unfold Obligations.OnlyAValidFrameRaisesConnected
  intro i s t h hs ht
  obtain ⟨-, hc⟩ | ⟨-, ⟨bytes, rfl⟩ | ⟨r, rfl⟩⟩ | ⟨levels, now, -, rfl⟩ := exec_cases h
  · obtain ⟨u, hu, -, ⟨-, hconn⟩ | ⟨-, hconn, -⟩⟩ := execPollCycle_session hc
    · obtain ⟨pre, b, tv, post, v, body, hrx, hpre, hlast, -⟩ | ⟨-, hsame⟩ := rxAll_session hu
      · exact ⟨pre, b, tv, post, v, body, hrx, hpre, hlast⟩
      · rw [← hconn, ht, beginStep_connected, hs] at hsame
        cases hsame
    · rw [ht] at hconn
      cases hconn
  · simp [hs] at ht
  · simp [hs] at ht
  · cases ht

/-- Settles O39: the frame's last byte answers and the parser waits, so the bytes after it answer too; the silence check
then sees the time of that byte or of a later frame's last one, and neither is too old. -/
theorem aValidFrameBeatsTheSilenceDeadline : Obligations.AValidFrameBeatsTheSilenceDeadline := by
  unfold Obligations.AValidFrameBeatsTheSilenceDeadline
  intro s u pre post b kind payload tv now tick beat _ hi hpre hlast hfresh
  obtain ⟨-, hui, -⟩ := rxAll_keeps hpre
  obtain ⟨v, hv, hvphase, hvvalid, hvconn⟩ := rxByte_completes (hui.trans hi) hlast
  obtain ⟨-, hvi, -⟩ := rxByte_keeps hv
  obtain ⟨w, hw⟩ := rxAll_answers (hvi.trans (hui.trans hi)) (parserInv_waitStart hvphase) post
  have hrx : rxAll (pre ++ (b, tv) :: post) s.beginStep = .next w := by
    rw [rxAll_append, hpre, andThen_next, rxAll_cons, hv, andThen_next, hw]
  have hsession : w.connected = true ∧ ∃ mid b' tv' rest v body, (b, tv) :: post = mid ++ (b', tv') :: rest ∧
      rxAll (pre ++ mid) s.beginStep = .next v ∧ completesFrame b' tv' v body ∧ w.tLastValid = tv' := by
    obtain ⟨mid, b', tv', rest, x, body, hpost, hmid, hlast', hvalid, hconn⟩ | ⟨hvalid, hconn⟩ := rxAll_session hw
    · refine ⟨hconn, (b, tv) :: mid, b', tv', rest, x, body, by rw [hpost, List.cons_append], ?_, hlast', hvalid⟩
      rw [rxAll_append, hpre, andThen_next, rxAll_cons, hv, andThen_next, hmid]
    · exact ⟨hconn.trans hvconn, [], b, tv, post, u, kind :: payload, rfl, by rw [List.append_nil, hpre], hlast,
        hvalid.trans hvvalid⟩
  obtain ⟨hwconn, mid, b', tv', rest, x, body, hsplit, hmid, hlast', hwvalid⟩ := hsession
  obtain ⟨t, ht⟩ := execPollCycle_answers hi hrx tick (some now) beat
  obtain ⟨w', hw', hvalid, hcases⟩ := execPollCycle_session ht
  rw [hrx] at hw'
  cases hw'
  refine ⟨t, ht, ?_⟩
  obtain ⟨hcount, hconn⟩ | ⟨-, -, -, now', hnow, hold⟩ := hcases
  · exact ⟨hconn.trans hwconn, List.count_eq_zero.1 hcount, mid, b', tv', rest, x, body, hsplit, hmid, hlast',
      hvalid.trans hwvalid⟩
  · cases hnow
    have hmem : (b', tv') ∈ (b, tv) :: post := by simp [hsplit]
    have hle : elapsed s.cfg now tv' ≤ s.cfg.silenceMs := hfresh (b', tv') hmem
    rw [hwvalid] at hold
    omega

end Sys2Proof.Proofs
end

section
/-! The debounce engine: what a tick reports, line by line, and what a press that stays does over many ticks
(44_debounce.md R200 to R207). -/

namespace Sys2Proof.Proofs

open Sys2Proof.Machine Sys2Proof.Laws

/-! ### The reports of a tick -/

/-- The state that line `i` reports on a tick, if it does. -/
def tickReport (levels : BitVec 4) (now : Nat) (s : State) (i : Fin 4) : Option Bool :=
  (lineStep s.cfg (rawLevel levels i) now (s.lines.get i)).2

/-- The reports of a tick, in ascending order of the lines. -/
def tickReports (levels : BitVec 4) (now : Nat) (s : State) : List (Fin 4 × Bool) :=
  ([0, 1, 2, 3] : List (Fin 4)).filterMap fun i => (tickReport levels now s i).map (Prod.mk i)

theorem mem_tickReports {levels : BitVec 4} {now : Nat} {s : State} {i : Fin 4} {x : Bool} :
    (i, x) ∈ tickReports levels now s ↔ tickReport levels now s i = some x := by
  have hall : i ∈ ([0, 1, 2, 3] : List (Fin 4)) := by fin_cases i <;> simp
  simp only [tickReports, List.mem_filterMap, Option.map_eq_some_iff, Prod.mk.injEq]
  constructor
  · rintro ⟨j, -, y, hy, rfl, rfl⟩
    exact hy
  · exact fun h => ⟨i, hall, x, h, rfl, rfl⟩

theorem tickReports_ascending (levels : BitVec 4) (now : Nat) (s : State) :
    (tickReports levels now s).Pairwise fun a b => a.1 < b.1 := by
  have hlines : ([0, 1, 2, 3] : List (Fin 4)).Pairwise (· < ·) := by decide
  refine List.Pairwise.filterMap _ (fun i j hij a ha b hb => ?_) hlines
  simp only [Option.map_eq_some_iff] at ha hb
  obtain ⟨x, -, rfl⟩ := ha
  obtain ⟨y, -, rfl⟩ := hb
  exact hij

/-- The events of a tick: one per report, in the order of the reports (R202). -/
def tickEvents (levels : BitVec 4) (now : Nat) (s : State) : List Effect :=
  (tickReports levels now s).map fun e => buttonTx s.cfg e.1 e.2

theorem sampleLines_events (levels : BitVec 4) (now : Nat) (s : State) :
    (sampleLines levels now s).effects = s.effects ++ tickEvents levels now s := by
  rw [sampleLines_effects, tickEvents, tickReports, List.map_filterMap, List.filterMap_eq_flatMap_toList]
  simp only [Option.map_map]
  rfl

/-- A tick writes the lines, and emits its events. -/
theorem sampleLines_eq (levels : BitVec 4) (now : Nat) (s : State) :
    sampleLines levels now s = { s with
      lines := (sampleLines levels now s).lines, effects := s.effects ++ tickEvents levels now s,
      tx := s.tx ++ (tickEvents levels now s).flatMap Effect.txBytes } := by
  obtain ⟨es, heffects, htx, -⟩ := sampleLines_emits levels now s
  have hes : es = tickEvents levels now s := List.append_cancel_left (heffects.symm.trans (sampleLines_events ..))
  rw [hes] at heffects htx
  rw [← heffects, ← htx]
  exact sampleLines_rest levels now s

/-- Line `i` is reported as `x` exactly when its event is among the effects of the tick. -/
theorem buttonTx_mem_iff {levels : BitVec 4} {now : Nat} {s : State} {i : Fin 4} {x : Bool} :
    buttonTx s.cfg i x ∈ tickEvents levels now s ↔
      tickReport levels now s i = some x := by
  rw [← mem_tickReports, tickEvents, List.mem_map]
  constructor
  · rintro ⟨⟨j, y⟩, hmem, he⟩
    obtain ⟨rfl, rfl⟩ := buttonTx_inj he
    exact hmem
  · exact fun h => ⟨_, h, rfl⟩

/-- The event of line `i` with state `x` is emitted once if the line reports `x`, and otherwise not at all. -/
theorem buttonTx_count (levels : BitVec 4) (now : Nat) (s : State) (i : Fin 4) (x : Bool) :
    (tickEvents levels now s).count (buttonTx s.cfg i x) =
      if tickReport levels now s i = some x then 1 else 0 := by
  have hnodup : (tickEvents levels now s).Nodup := by
    refine List.Nodup.map (fun a b h => ?_) ((tickReports_ascending levels now s).imp fun h e => ?_)
    · obtain ⟨h1, h2⟩ := buttonTx_inj h
      exact Prod.ext h1 h2
    · exact absurd h (by simp [e])
  split
  · rename_i h
    exact List.count_eq_one_of_mem hnodup (buttonTx_mem_iff.2 h)
  · rename_i h
    exact List.count_eq_zero.2 (mt buttonTx_mem_iff.1 h)

/-- After `INIT` a tick of its own answers. -/
theorem exec_sampleTick {s : State} (hi : s.inited = true) (levels : BitVec 4) (now : Nat) :
    exec (.sampleTick levels now) s = .next (sampleLines levels now s.beginStep) := requireInit_true hi

/-- The effects of a tick of its own. -/
theorem sampleTick_effects (levels : BitVec 4) (now : Nat) (s : State) :
    (sampleLines levels now s.beginStep).effects = tickEvents levels now s :=
  sampleLines_events levels now s.beginStep

theorem sampleTick_get (levels : BitVec 4) (now : Nat) (s : State) (i : Fin 4) :
    (sampleLines levels now s.beginStep).lines.get i = (lineStep s.cfg levels[i.val] now (s.lines.get i)).1 := by
  rw [sampleLines_get, rawLevel_eq]
  rfl

theorem tickReport_eq (levels : BitVec 4) (now : Nat) (s : State) (i : Fin 4) :
    tickReport levels now s i = (lineStep s.cfg levels[i.val] now (s.lines.get i)).2 := by
  rw [tickReport, rawLevel_eq]

/-- Settles O45: each line by `lineStep_cases`, the events by the reports of the tick. -/
theorem sampleTickStepsTheFourLines : Obligations.SampleTickStepsTheFourLines := by
  unfold Obligations.SampleTickStepsTheFourLines
  intro levels now s hi
  refine ⟨_, exec_sampleTick hi levels now, fun i L v hL hv => ?_,
    ⟨tickReports levels now s, tickReports_ascending _ _ _, sampleTick_effects _ _ _⟩, ?_⟩
  · have hget := sampleTick_get levels now s i
    have hreport := tickReport_eq levels now s i
    have hmem : ∀ x, buttonTx s.cfg i x ∈ (sampleLines levels now s.beginStep).effects ↔
        tickReport levels now s i = some x := fun x => by rw [sampleTick_effects, buttonTx_mem_iff]
    rw [← hL] at hget hreport
    obtain ⟨hf, e⟩ | ⟨hf, he, e⟩ | ⟨hf, he, e⟩ := lineStep_cases s.cfg levels[i.val] now L v hv <;>
      rw [e] at hget hreport
    · exact ⟨fun _ => ⟨hget, fun x hx => by simpa [hreport] using (hmem x).1 hx⟩, fun h => absurd hf h⟩
    · refine ⟨fun h => absurd h hf, fun _ => ⟨fun _ => ⟨hget, ?_⟩, fun h => absurd he h⟩⟩
      rw [sampleTick_effects, buttonTx_count, if_pos hreport]
    · exact ⟨fun h => absurd h hf, fun _ => ⟨fun h => absurd h he,
        fun _ => ⟨hget, fun x hx => by simpa [hreport] using (hmem x).1 hx⟩⟩⟩
  · rw [sampleTick_effects]
    exact sampleLines_eq levels now s.beginStep

/-- Settles O46: a line's record and its report are those of `LINE_STEP` on the line alone. -/
theorem linesAreIndependent : Obligations.LinesAreIndependent := by
  unfold Obligations.LinesAreIndependent
  intro levels levels' now s s' t t' i hcfg hline hlevel h h'
  obtain ⟨-, ht⟩ := requireInit_eq_next h
  obtain ⟨-, ht'⟩ := requireInit_eq_next h'
  cases ht
  cases ht'
  refine ⟨by rw [sampleTick_get, sampleTick_get, hcfg, hline, hlevel], fun x => ?_⟩
  rw [sampleTick_effects, sampleTick_effects, buttonTx_mem_iff, hcfg, buttonTx_mem_iff, tickReport_eq, tickReport_eq,
    hcfg, hline, hlevel]

/-- Settles O49: the two laws of a line's count. -/
theorem matchCounterSaturates : Obligations.MatchCounterSaturates := by
  unfold Obligations.MatchCounterSaturates
  intro levels now s t k hc hcnt h
  obtain ⟨-, ht⟩ := requireInit_eq_next h
  cases ht
  obtain ⟨-, -, -, -, -, ⟨hthresh, hmax⟩, -⟩ := hc
  rw [sampleTick_get]
  exact ⟨lineStep_cnt _ _ _ _ (hthresh.trans hmax) hcnt, lineStep_cnt_equal _ _ _ _ hcnt.2⟩

/-! ### Over every operation -/

theorem lineStep_activeLow (c : Cfg) (level : Bool) (now : Nat) (L : ButtonLine) :
    (lineStep c level now L).1.activeLow = L.activeLow := by
  obtain ⟨-, e⟩ | ⟨-, -, e⟩ | ⟨-, -, e⟩ := lineStep_cases c level now L _ rfl <;> rw [e]

/-- Settles O48: `INIT` writes the polarity, and no other part of an operation does. -/
theorem polarityIsFixedUntilInit : Obligations.PolarityIsFixedUntilInit := by
  unfold Obligations.PolarityIsFixedUntilInit
  refine ⟨fun levels now s k => ⟨_, rfl, ?_⟩, fun i s t k h hinit => ?_⟩
  · show ((calibratedLines s.cfg levels now).get k).activeLow = _
    rw [calibratedLines_get]
    exact rawLevel_eq levels k
  · refine exec_induction (motive := fun u => (u.lines.get k).activeLow = (s.lines.get k).activeLow)
      ?_ ?_ ?_ ?_ ?_ ?_ ?_ rfl h
    · intro b now u v _ hu hv
      obtain ⟨-, -, -, hlines, -⟩ := rxByte_keeps hv
      rw [hlines, hu]
    · intro levels now u _ hu
      rw [sampleLines_get, lineStep_activeLow, hu]
    · intro now u _ hu
      rw [silenceCheck_rest]
      exact hu
    · intro now status u _ hu
      rw [beatCheck_rest]
      exact hu
    · exact fun bytes u hu => hu
    · exact fun r u hu => hu
    · exact fun levels now hi => absurd hi (hinit levels now)

/-- The lines change in a poll cycle only in its tick, whose effects are among those of the cycle. -/
theorem execPollCycle_lines {rx : List (Byte × Nat)} {tick : Option (BitVec 4 × Nat)} {silence : Option Nat}
    {beat : Option (Nat × Byte)} {s t : State} (h : execPollCycle rx tick silence beat s = .next t) :
    t.lines = s.lines ∨ ∃ levels now u, tick = some (levels, now) ∧ u.cfg = s.cfg ∧ u.lines = s.lines ∧
      t.lines = (sampleLines levels now u).lines ∧ ∀ e ∈ (sampleLines levels now u).effects, e ∈ t.effects := by
  obtain ⟨u, v, w, h1, h2, h3, h4⟩ := execPollCycle_cases h
  obtain ⟨hcfg, -, -, hlines, -⟩ := rxAll_keeps h1
  obtain ⟨hw, -⟩ := cycleSilence_rest h3
  obtain ⟨ht, -⟩ := cycleBeat_rest h4
  have htlines : t.lines = v.lines := by rw [ht, hw]
  obtain ⟨-, rfl⟩ | ⟨levels, now, htick, -, rfl⟩ := cycleTick_cases h2
  · exact .inl (htlines.trans hlines)
  · refine .inr ⟨levels, now, u, htick, hcfg, hlines, htlines, fun e he => ?_⟩
    exact (cycleBeat_emits h4).mem ((cycleSilence_emits h3).mem he)

/-- A line whose reported state changes in a step passed the edge test: it reports the new state, and the time of the
report is the tick's. -/
theorem lineStep_reported {c : Cfg} {level : Bool} {now : Nat} {L : ButtonLine}
    (h : (lineStep c level now L).1.reported ≠ L.reported) :
    (lineStep c level now L).2 = some (lineStep c level now L).1.reported ∧ (lineStep c level now L).1.tRep = now ∧
      c.quietMs ≤ elapsed c now L.tRep := by
  obtain ⟨-, e⟩ | ⟨-, ⟨-, -, hquiet⟩, e⟩ | ⟨-, -, e⟩ := lineStep_cases c level now L _ rfl <;> rw [e] at h ⊢
  · exact absurd rfl h
  · exact ⟨rfl, rfl, hquiet⟩
  · exact absurd rfl h

/-- An operation with a tick is a tick of its own or a poll cycle. -/
theorem tickOf_eq_some {i : Instr} {levels : BitVec 4} {now : Nat} (h : tickOf i = some (levels, now)) :
    i = .sampleTick levels now ∨ ∃ rx silence beat, i = .pollCycle rx (some (levels, now)) silence beat := by
  cases i with
  | sampleTick =>
    cases h
    exact .inl rfl
  | pollCycle rx tick silence beat =>
    obtain rfl : tick = some (levels, now) := h
    exact .inr ⟨rx, silence, beat, rfl⟩
  | _ => cases h

/-- Settles O47: only a tick writes the lines, and a reported state changes only through the edge test. -/
theorem reportedStateChangesOnlyWithItsEvent : Obligations.ReportedStateChangesOnlyWithItsEvent := by
  unfold Obligations.ReportedStateChangesOnlyWithItsEvent
  intro i s t k h hinit hne
  obtain ⟨-, hc⟩ | ⟨-, ⟨bytes, rfl⟩ | ⟨r, rfl⟩⟩ | ⟨levels, now, hi, rfl⟩ := exec_cases h
  · obtain hlines | ⟨levels, now, u, htick, hcfg, hlines, ht, heffects⟩ := execPollCycle_lines hc
    · rw [hlines] at hne
      exact absurd rfl hne
    · rw [ht, sampleLines_get, hcfg, hlines] at hne
      obtain ⟨hreport, htime, hquiet⟩ := lineStep_reported hne
      refine ⟨levels, now, tickOf_eq_some htick, heffects _ ?_, ?_, hquiet⟩
      · rw [sampleLines_events, ht, sampleLines_get]
        refine List.mem_append_right _ ?_
        rw [← hcfg, buttonTx_mem_iff, tickReport, hcfg, hlines]
        exact hreport
      · rw [ht, sampleLines_get, hcfg, hlines]
        exact htime
  · exact absurd rfl hne
  · exact absurd rfl hne
  · exact absurd hi (hinit levels now)

/-! ### A press that stays (R207) -/

/-- The operations of a list of ticks. -/
def ticksOf (ticks : List (BitVec 4 × Nat)) : List Instr := ticks.map fun p => .sampleTick p.1 p.2

/-- After one tick the others run on, and the events of all of them are counted together. -/
theorem runTicks_cons {s : State} (hi : s.inited = true) {p : BitVec 4 × Nat} {ticks : List (BitVec 4 × Nat)}
    {t : State} (h : runOps (ticksOf ticks) (sampleLines p.1 p.2 s.beginStep) = .next t) :
    ∃ t', runOps (ticksOf (p :: ticks)) s = .next t' ∧
      ∀ e, t'.effects.count e = (tickEvents p.1 p.2 s).count e + t.effects.count e := by
  refine ⟨joinOutputs (sampleLines p.1 p.2 s.beginStep) t, ?_, fun e => ?_⟩
  · show andThen (exec (.sampleTick p.1 p.2) s) _ = _
    rw [exec_sampleTick hi, andThen_next]
    show andThen (runOps (ticksOf ticks) _) _ = _
    rw [h, andThen_next]
  · show ((sampleLines p.1 p.2 s.beginStep).effects ++ t.effects).count e = _
    rw [List.count_append, sampleTick_effects]

/-- A line reported pressed that reads pressed stays as it is reported, and does not report. -/
theorem lineStep_pressed {c : Cfg} {level : Bool} {now : Nat} {L : ButtonLine} (hreported : L.reported = true)
    (hv : xor level L.activeLow = true) :
    (lineStep c level now L).2 = none ∧ (lineStep c level now L).1.reported = true := by
  obtain ⟨-, e⟩ | ⟨-, ⟨-, hne, -⟩, e⟩ | ⟨-, -, e⟩ := lineStep_cases c level now L _ rfl <;> rw [e]
  · exact ⟨rfl, hreported⟩
  · exact absurd (hv.trans hreported.symm) hne
  · exact ⟨rfl, hreported⟩

/-- How many samples in a row were pressed, up to the last one. -/
def pressedRun (L : ButtonLine) : Nat := if L.cand then L.cnt else 0

/-- A pressed sample makes the run one longer, below the largest count. -/
theorem countAfter_pressed {c : Cfg} {L : ButtonLine} (h : pressedRun L < 2 ^ c.cntW - 1) :
    countAfter c L true = pressedRun L + 1 := by
  unfold pressedRun at h ⊢
  unfold countAfter
  cases hcand : L.cand with
  | true =>
    rw [hcand, if_pos rfl] at h
    exact Nat.min_eq_left h
  | false => rfl

/-- A line reported released, out of its quiet period, that reads pressed: it reports when the run reaches the
threshold, and otherwise only the run grows. -/
theorem lineStep_pressing {c : Cfg} {level : Bool} {now : Nat} {L : ButtonLine} (hc : c.Legal)
    (hreported : L.reported = false) (hrun : pressedRun L < c.matchThresh) (hv : xor level L.activeLow = true)
    (hquiet : c.quietMs ≤ elapsed c now L.tRep) :
    lineStep c level now L =
      if c.matchThresh ≤ pressedRun L + 1 then
        ({ L with cand := true, cnt := pressedRun L + 1, reported := true, tRep := now }, some true)
      else ({ L with cand := true, cnt := pressedRun L + 1 }, none) := by
  obtain ⟨-, -, -, -, -, ⟨-, hmax⟩, -⟩ := hc
  have hcount := countAfter_pressed (c := c) (L := L) (by omega)
  have hedge : edgeAt c now L true (pressedRun L + 1) ↔ c.matchThresh ≤ pressedRun L + 1 := by
    simp [edgeAt, hreported, hquiet]
  obtain ⟨⟨-, hfrozen⟩, -⟩ | ⟨-, he, e⟩ | ⟨-, he, e⟩ := lineStep_cases c level now L true hv.symm
  · omega
  · rw [hcount] at he e
    rw [e, if_pos (hedge.1 he)]
  · rw [hcount] at he e
    rw [e, if_neg (mt hedge.2 he)]

/-- A line that is reported pressed and reads pressed on every tick sends no event. -/
theorem pressed_silent (ticks : List (BitVec 4 × Nat)) (s : State) (k : Fin 4) (hi : s.inited = true)
    (hreported : (s.lines.get k).reported = true)
    (hticks : ∀ p ∈ ticks, xor p.1[k.val] (s.lines.get k).activeLow = true) :
    ∃ t, runOps (ticksOf ticks) s = .next t ∧ ∀ x, t.effects.count (buttonTx s.cfg k x) = 0 := by
  induction ticks generalizing s with
  | nil => exact ⟨s.beginStep, rfl, fun _ => rfl⟩
  | cons p rest ih =>
    obtain ⟨hhere, hrest⟩ := List.forall_mem_cons.1 hticks
    obtain ⟨hquiet, hstays⟩ := lineStep_pressed (c := s.cfg) (now := p.2) hreported hhere
    have hcfg : (sampleLines p.1 p.2 s.beginStep).cfg = s.cfg := by rw [sampleLines_rest]; rfl
    obtain ⟨t, ht, hcount⟩ := ih (sampleLines p.1 p.2 s.beginStep) (by rw [sampleLines_rest]; exact hi)
      (by rw [sampleTick_get]; exact hstays) (by rw [sampleTick_get, lineStep_activeLow]; exact hrest)
    obtain ⟨t', ht', hsum⟩ := runTicks_cons hi ht
    refine ⟨t', ht', fun x => ?_⟩
    rw [hsum, buttonTx_count, tickReport_eq, hquiet, ← hcfg, hcount]
    rfl

/-- A line reported released, out of its quiet period, that reads pressed on every tick sends one press event when the
run reaches the threshold, and no release event. -/
theorem pressing_reports (ticks : List (BitVec 4 × Nat)) (s : State) (k : Fin 4) (hc : s.cfg.Legal)
    (hi : s.inited = true) (hreported : (s.lines.get k).reported = false)
    (hrun : pressedRun (s.lines.get k) < s.cfg.matchThresh)
    (hticks : ∀ p ∈ ticks, xor p.1[k.val] (s.lines.get k).activeLow = true ∧
      s.cfg.quietMs ≤ elapsed s.cfg p.2 (s.lines.get k).tRep) :
    ∃ t, runOps (ticksOf ticks) s = .next t ∧
      t.effects.count (buttonTx s.cfg k true) =
        (if s.cfg.matchThresh ≤ pressedRun (s.lines.get k) + ticks.length then 1 else 0) ∧
      t.effects.count (buttonTx s.cfg k false) = 0 := by
  induction ticks generalizing s with
  | nil => exact ⟨s.beginStep, rfl, (if_neg (Nat.not_le.2 hrun)).symm, rfl⟩
  | cons p rest ih =>
    obtain ⟨⟨hhere, hquiet⟩, hrest⟩ := List.forall_mem_cons.1 hticks
    have hstep := lineStep_pressing hc hreported hrun hhere hquiet
    have hcfg : (sampleLines p.1 p.2 s.beginStep).cfg = s.cfg := by rw [sampleLines_rest]; rfl
    have hinited : (sampleLines p.1 p.2 s.beginStep).inited = true := by rw [sampleLines_rest]; exact hi
    have hline := sampleTick_get p.1 p.2 s k
    have hreport := tickReport_eq p.1 p.2 s k
    rw [hstep] at hline hreport
    by_cases hlast : s.cfg.matchThresh ≤ pressedRun (s.lines.get k) + 1
    · rw [if_pos hlast] at hline hreport
      obtain ⟨t, ht, hcount⟩ := pressed_silent rest _ k hinited (by rw [hline])
        (by rw [hline]; exact fun q hq => (hrest q hq).1)
      obtain ⟨t', ht', hsum⟩ := runTicks_cons hi ht
      rw [hcfg] at hcount
      refine ⟨t', ht', ?_, ?_⟩
      · rw [hsum, buttonTx_count, hreport, hcount, if_pos rfl, if_pos (by rw [List.length_cons]; omega)]
      · rw [hsum, buttonTx_count, hreport, hcount]
        rfl
    · rw [if_neg hlast] at hline hreport
      have hgrown : pressedRun ((sampleLines p.1 p.2 s.beginStep).lines.get k) = pressedRun (s.lines.get k) + 1 := by
        rw [hline]
        rfl
      obtain ⟨t, ht, htrue, hfalse⟩ := ih (sampleLines p.1 p.2 s.beginStep) (by rwa [hcfg]) hinited
        (by rw [hline]; exact hreported) (by rw [hgrown, hcfg]; omega) (by rw [hline, hcfg]; exact hrest)
      obtain ⟨t', ht', hsum⟩ := runTicks_cons hi ht
      rw [hcfg, hgrown] at htrue
      rw [hcfg] at hfalse
      refine ⟨t', ht', ?_, ?_⟩
      · rw [hsum, buttonTx_count, hreport, htrue, List.length_cons, Nat.add_assoc, Nat.add_comm 1]
        exact Nat.zero_add _
      · rw [hsum, buttonTx_count, hreport, hfalse]
        rfl

/-- Settles O50: the run begins at 0, so it reaches the threshold on the `MATCH_THRESH`-th tick. -/
theorem aCleanPressIsReportedOnce : Obligations.ACleanPressIsReportedOnce := by
  unfold Obligations.ACleanPressIsReportedOnce
  intro ticks s k hc hi hcand hreported hticks
  have hrun : pressedRun (s.lines.get k) = 0 := by rw [pressedRun, hcand]; rfl
  obtain ⟨-, -, -, -, -, ⟨hthresh, -⟩, -⟩ := id hc
  have h := pressing_reports ticks s k hc hi hreported (by omega) hticks
  rwa [hrun, Nat.zero_add] at h

end Sys2Proof.Proofs
end

section
/-! The width of the match counter is not observable: blocks that are the same but for counts answer every part of an
operation alike (10_state.md R38). -/

namespace Sys2Proof.Proofs

open Sys2Proof.Machine Sys2Proof.Laws

/-- Two blocks are the same but for counts when one is the other with a width and lines that agree up to the
threshold. -/
theorem sameButForCounts_iff {s s' : State} :
    sameButForCounts s s' ↔ ∃ w ls, s' = s.withCounts w ls ∧
      (s.cfg.matchThresh ≤ 2 ^ s.cfg.cntW - 1 ∧ s.cfg.matchThresh ≤ 2 ^ w - 1) ∧
      ∀ i, sameUpToCount s.cfg.matchThresh (s.lines.get i) (ls.get i) := by
  constructor
  · exact fun h => ⟨_, _, h⟩
  · rintro ⟨w, ls, rfl, h⟩
    exact ⟨rfl, h⟩

/-- A change that reads neither the width nor the lines, and writes neither, keeps two blocks the same. -/
theorem sameButForCounts_map {F : State → State} (hF : ∀ s w ls, F (s.withCounts w ls) = (F s).withCounts w ls)
    (hcfg : ∀ s, (F s).cfg = s.cfg) (hlines : ∀ s, (F s).lines = s.lines) {s s' : State}
    (h : sameButForCounts s s') : sameButForCounts (F s) (F s') := by
  obtain ⟨w, ls, rfl, hsame⟩ := sameButForCounts_iff.1 h
  rw [← hcfg s, ← hlines s] at hsame
  exact sameButForCounts_iff.2 ⟨w, ls, hF s w ls, hsame⟩

theorem requireInit_same {s s' : State} (h : sameButForCounts s s') {o o' : Out} (ho : sameOutcome o o') :
    sameOutcome (requireInit s o) (requireInit s' o') := by
  obtain ⟨w, ls, rfl, -⟩ := sameButForCounts_iff.1 h
  cases hi : s.inited with
  | true => rwa [requireInit_true hi, requireInit_true (by exact hi)]
  | false =>
    rw [requireInit_false hi, requireInit_false (by exact hi)]
    rfl

theorem rxAll_same {s s' : State} (h : sameButForCounts s s') (rx : List (Byte × Nat)) :
    sameOutcome (rxAll rx s) (rxAll rx s') := by
  obtain ⟨w, ls, rfl, hsame⟩ := sameButForCounts_iff.1 h
  rw [rxAll_withCounts]
  cases hrx : rxAll rx s with
  | next t =>
    obtain ⟨hcfg, -, -, hlines, -⟩ := rxAll_keeps hrx
    rw [← hcfg, ← hlines] at hsame
    exact sameOutcome_next (sameButForCounts_iff.2 ⟨w, ls, rfl, hsame⟩)
  | fault f => rfl
  | refused r => rfl

/-! ### The tick -/

/-- Lines that agree up to the threshold report the same. -/
theorem tickEvents_same {s : State} {w : Nat} {ls : Lines} (levels : BitVec 4) (now : Nat)
    (hw : s.cfg.matchThresh ≤ 2 ^ s.cfg.cntW - 1 ∧ s.cfg.matchThresh ≤ 2 ^ w - 1)
    (h : ∀ i, sameUpToCount s.cfg.matchThresh (s.lines.get i) (ls.get i)) :
    tickEvents levels now (s.withCounts w ls) = tickEvents levels now s := by
  have hreport : tickReport levels now (s.withCounts w ls) = tickReport levels now s :=
    funext fun i => (lineStep_same (rawLevel levels i) now (h i) hw.1 hw.2).1.symm
  rw [tickEvents, tickReports, hreport]
  rfl

theorem sampleLines_same {s s' : State} (h : sameButForCounts s s') (levels : BitVec 4) (now : Nat) :
    sameButForCounts (sampleLines levels now s) (sampleLines levels now s') := by
  obtain ⟨w, ls, rfl, hw, hl⟩ := sameButForCounts_iff.1 h
  have hcfg : (sampleLines levels now s).cfg = s.cfg := by rw [sampleLines_rest]
  rw [sameButForCounts_iff, hcfg]
  refine ⟨w, (sampleLines levels now (s.withCounts w ls)).lines, ?_, hw, fun i => ?_⟩
  · have hwide := sampleLines_eq levels now (s.withCounts w ls)
    rw [tickEvents_same levels now hw hl] at hwide
    generalize (sampleLines levels now (s.withCounts w ls)).lines = ls' at hwide ⊢
    rw [hwide, sampleLines_eq levels now s]
    rfl
  · rw [sampleLines_get, sampleLines_get]
    exact (lineStep_same (rawLevel levels i) now (hl i) hw.1 hw.2).2

/-! ### The checks -/

theorem silenceCheck_withCounts (now : Nat) (s : State) (w : Nat) (ls : Lines) :
    silenceCheck now (s.withCounts w ls) = (silenceCheck now s).withCounts w ls := by
  unfold silenceCheck
  by_cases h : (s.connected && silenceExpired s.cfg now s.tLastValid) = true
  · rw [if_pos h, if_pos (by exact h)]
    rfl
  · rw [if_neg h, if_neg (by exact h)]

theorem beatCheck_withCounts (now : Nat) (status : Byte) (s : State) (w : Nat) (ls : Lines) :
    beatCheck now status (s.withCounts w ls) = (beatCheck now status s).withCounts w ls := by
  unfold beatCheck
  by_cases h : heartbeatDue s.cfg now s.tLastHb = true
  · rw [if_pos h, if_pos (by exact h)]
    rfl
  · rw [if_neg h, if_neg (by exact h)]

theorem silenceCheck_same {s s' : State} (h : sameButForCounts s s') (now : Nat) :
    sameButForCounts (silenceCheck now s) (silenceCheck now s') :=
  sameButForCounts_map (silenceCheck_withCounts now) (fun s => by rw [silenceCheck_rest])
    (fun s => by rw [silenceCheck_rest]) h

theorem beatCheck_same {s s' : State} (h : sameButForCounts s s') (now : Nat) (status : Byte) :
    sameButForCounts (beatCheck now status s) (beatCheck now status s') :=
  sameButForCounts_map (beatCheck_withCounts now status) (fun s => by rw [beatCheck_rest])
    (fun s => by rw [beatCheck_rest]) h

/-! ### Operations and steps -/

theorem beginStep_same {s s' : State} (h : sameButForCounts s s') : sameButForCounts s.beginStep s'.beginStep :=
  sameButForCounts_map (F := State.beginStep) (fun _ _ _ => rfl) (fun _ => rfl) (fun _ => rfl) h

theorem answer_same {s s' : State} (h : sameButForCounts s s') (r : Result) :
    sameButForCounts (s.answer r) (s'.answer r) :=
  sameButForCounts_map (F := (State.answer · r)) (fun _ _ _ => rfl) (fun _ => rfl) (fun _ => rfl) h

theorem execPollCycle_same {s s' : State} (h : sameButForCounts s s') (rx : List (Byte × Nat))
    (tick : Option (BitVec 4 × Nat)) (silence : Option Nat) (beat : Option (Nat × Byte)) :
    sameOutcome (execPollCycle rx tick silence beat s) (execPollCycle rx tick silence beat s') := by
  refine sameOutcome_andThen (sameOutcome_andThen (sameOutcome_andThen (rxAll_same (beginStep_same h) rx)
    fun t t' ht => ?_) fun t t' ht => ?_) fun t t' ht => ?_
  · cases tick with
    | none => exact sameOutcome_next ht
    | some p => exact requireInit_same ht (sameOutcome_next (sampleLines_same ht p.1 p.2))
  · cases silence with
    | none => exact sameOutcome_next ht
    | some now => exact requireInit_same ht (sameOutcome_next (silenceCheck_same ht now))
  · cases beat with
    | none => exact sameOutcome_next ht
    | some p => exact requireInit_same ht (sameOutcome_next (beatCheck_same ht p.1 p.2))

theorem receivedBytes_withCounts (c : Cfg) (w : Nat) (i : Instr) :
    receivedBytes { c with cntW := w } i = receivedBytes c i := by
  cases i <;> rfl

theorem decode_withCounts (c : Cfg) (w : Nat) (inp : Input) : decode { c with cntW := w } inp = decode c inp := by
  cases inp <;> rfl

/-- `INIT` writes the same lines, whatever the width. -/
theorem initialised_same {s s' : State} (h : sameButForCounts s s') (levels : BitVec 4) (now : Nat) :
    sameButForCounts (initialised levels now s) (initialised levels now s') := by
  obtain ⟨w, ls, rfl, hw, -⟩ := sameButForCounts_iff.1 h
  exact sameButForCounts_iff.2 ⟨w, calibratedLines s.cfg levels now, rfl, hw, fun _ => ⟨rfl, rfl, rfl, rfl, rfl⟩⟩

theorem exec_same {s s' : State} (h : sameButForCounts s s') (i : Instr) : sameOutcome (exec i s) (exec i s') := by
  cases hc : isCycle i with
  | true =>
    have hreceived : receivedBytes s'.cfg i = receivedBytes s.cfg i := by
      obtain ⟨w, ls, rfl, -⟩ := sameButForCounts_iff.1 h
      exact receivedBytes_withCounts s.cfg w i
    rw [exec_eq_cycle hc, exec_eq_cycle hc, hreceived]
    exact execPollCycle_same h _ _ _ _
  | false =>
    have hbegin := beginStep_same h
    cases i with
    | sendButtonEvent index pressed =>
      exact sameOutcome_next (sameButForCounts_map (F := sendButton index pressed) (fun _ _ _ => rfl) (fun _ => rfl)
        (fun _ => rfl) hbegin)
    | sendHeartbeat status =>
      exact sameOutcome_next (sameButForCounts_map (F := sendBeat status) (fun _ _ _ => rfl) (fun _ => rfl)
        (fun _ => rfl) hbegin)
    | init levels now => exact sameOutcome_next (initialised_same hbegin levels now)
    | xorfold bs => exact sameOutcome_next (answer_same hbegin (.byte (xorFold bs)))
    | bridgeConnected =>
      exact sameOutcome_next (sameButForCounts_map (F := fun s => s.answer (.bit s.connected)) (fun _ _ _ => rfl)
        (fun _ => rfl) (fun _ => rfl) hbegin)
    | encode kind payload =>
      show sameOutcome (execEncode kind payload s) (execEncode kind payload s')
      unfold execEncode
      split
      · exact sameOutcome_next (answer_same hbegin (.bytes (frameOf kind payload)))
      · rfl
    | nop | pollCycle | sampleTick | sessionCheck | heartbeatCheck | rxByte | displayText | statusText | setLeds
    | clearDisplay | setButtonLabels | buttonEvent | heartbeat | unknownKind | rxs => cases hc

/-- Settles O51: every part of an operation answers alike, and the decoder does not read the width. -/
theorem counterWidthIsNotObservable : Obligations.CounterWidthIsNotObservable := by
  unfold Obligations.CounterWidthIsNotObservable
  intro s s' h
  refine ⟨exec_same h, ?_⟩
  obtain ⟨hrun, hidle⟩ := aStepRunsTheDecodedInput
  obtain ⟨w, ls, rfl, hsame⟩ := sameButForCounts_iff.1 h
  cases hpend : s.pending with
  | nil =>
    rw [hidle s hpend, hidle (s.withCounts w ls) hpend]
    exact exec_same h .nop
  | cons inp rest =>
    rw [hrun s inp rest hpend, hrun (s.withCounts w ls) inp rest hpend]
    rw [show decode (s.withCounts w ls).cfg inp = decode s.cfg inp from decode_withCounts s.cfg w inp]
    exact exec_same (s := { s with pending := rest }) (sameButForCounts_iff.2 ⟨w, ls, rfl, hsame⟩) _

end Sys2Proof.Proofs
end

section
/-! A composite is its operations one after another: the outputs of the step before only stand in front of those of a
part, so parts run as steps of their own give the same outputs, joined (30_encoding.md R113, 45_system.md R226). -/

namespace Sys2Proof.Proofs

open Sys2Proof.Machine Sys2Proof.Laws

/-- A part of an operation only appends to the outputs that it finds, and does not read them. -/
def Appends (k : State → Out) : Prop :=
  ∀ p s, k (joinOutputs p s) = andThen (k s) fun t => .next (joinOutputs p t)

theorem appends_next : Appends Host.Outcome.next := fun _ _ => rfl

theorem Appends.andThen {k l : State → Out} (hk : Appends k) (hl : Appends l) :
    Appends fun s => Machine.andThen (k s) l := by
  intro p s
  show Machine.andThen (k (joinOutputs p s)) l = Machine.andThen (Machine.andThen (k s) l) _
  rw [hk, andThen_assoc, andThen_assoc]
  congr 1
  funext t
  exact hl p t

/-- A change of state that only appends to the outputs, after the test of `INIT`. -/
theorem appends_requireInit {F : State → State} (hF : ∀ p s, F (joinOutputs p s) = joinOutputs p (F s)) :
    Appends fun s => requireInit s (.next (F s)) := by
  intro p s
  cases hi : s.inited with
  | true =>
    dsimp only
    rw [requireInit_true hi, requireInit_true (by exact hi), hF, andThen_next]
  | false =>
    dsimp only
    rw [requireInit_false hi, requireInit_false (by exact hi), andThen_refused]

/-! ### The parts -/

theorem emit_joinOutputs (p s : State) (e : Effect) : (joinOutputs p s).emit e = joinOutputs p (s.emit e) := by
  simp [joinOutputs, State.emit]

theorem takeDrop_joinOutputs (p s : State) (d : Drop) :
    takeDrop d (joinOutputs p s) = joinOutputs p (takeDrop d s) := by
  simp [joinOutputs, takeDrop]

theorem stepLine_joinOutputs (i : Fin 4) (levels : BitVec 4) (now : Nat) (p s : State) :
    stepLine i levels now (joinOutputs p s) = joinOutputs p (stepLine i levels now s) := by
  unfold stepLine
  dsimp only
  cases hr : (lineStep s.cfg (rawLevel levels i) now (s.lines.get i)).2 with
  | none =>
    rw [show (lineStep (joinOutputs p s).cfg (rawLevel levels i) now ((joinOutputs p s).lines.get i)).2 = none from hr]
    rfl
  | some pressed =>
    rw [show (lineStep (joinOutputs p s).cfg (rawLevel levels i) now ((joinOutputs p s).lines.get i)).2 =
      some pressed from hr]
    exact emit_joinOutputs p { s with lines := _ } _

theorem sampleLines_joinOutputs (levels : BitVec 4) (now : Nat) (p s : State) :
    sampleLines levels now (joinOutputs p s) = joinOutputs p (sampleLines levels now s) := by
  unfold sampleLines
  simp only [stepLine_joinOutputs]

theorem silenceCheck_joinOutputs (now : Nat) (p s : State) :
    silenceCheck now (joinOutputs p s) = joinOutputs p (silenceCheck now s) := by
  unfold silenceCheck
  by_cases h : (s.connected && silenceExpired s.cfg now s.tLastValid) = true
  · rw [if_pos h, if_pos (by exact h)]
    exact emit_joinOutputs p { s with connected := false } _
  · rw [if_neg h, if_neg (by exact h)]

theorem beatCheck_joinOutputs (now : Nat) (status : Byte) (p s : State) :
    beatCheck now status (joinOutputs p s) = joinOutputs p (beatCheck now status s) := by
  unfold beatCheck
  by_cases h : heartbeatDue s.cfg now s.tLastHb = true
  · rw [if_pos h, if_pos (by exact h)]
    exact emit_joinOutputs p { s with tLastHb := now } _
  · rw [if_neg h, if_neg (by exact h)]

theorem appends_cycleTick (tick : Option (BitVec 4 × Nat)) : Appends (cycleTick tick) := by
  cases tick with
  | none => exact appends_next
  | some q => exact appends_requireInit (sampleLines_joinOutputs q.1 q.2)

theorem appends_cycleSilence (silence : Option Nat) : Appends (cycleSilence silence) := by
  cases silence with
  | none => exact appends_next
  | some now => exact appends_requireInit (silenceCheck_joinOutputs now)

theorem appends_cycleBeat (beat : Option (Nat × Byte)) : Appends (cycleBeat beat) := by
  cases beat with
  | none => exact appends_next
  | some q => exact appends_requireInit (beatCheck_joinOutputs q.1 q.2)

/-! ### A received byte -/

theorem waitStartByte_joinOutputs (b : Byte) (p s : State) :
    waitStartByte b (joinOutputs p s) = joinOutputs p (waitStartByte b s) := by
  unfold waitStartByte
  split
  · rfl
  · exact takeDrop_joinOutputs p s _

theorem boundCheck_joinOutputs (p s : State) : boundCheck (joinOutputs p s) = joinOutputs p (boundCheck s) := by
  unfold boundCheck
  by_cases hlong : lenTooLong s.cfg s.bodyLen = true
  · rw [if_pos hlong, if_pos (by exact hlong), takeDrop_joinOutputs]
  · rw [if_neg hlong, if_neg (by exact hlong)]
    by_cases hzero : lenIsZero s.bodyLen = true
    · rw [if_pos hzero, if_pos (by exact hzero), takeDrop_joinOutputs]
    · rw [if_neg hzero, if_neg (by exact hzero)]
      rfl

theorem advanceCursor_joinOutputs (p s : State) :
    advanceCursor (joinOutputs p s) = joinOutputs p (advanceCursor s) := by
  by_cases h : s.cursor + 1 = s.bodyLen
  · rw [advanceCursor_last h, advanceCursor_last (by exact h)]
    rfl
  · rw [advanceCursor_more h, advanceCursor_more (by exact h)]
    rfl

theorem dispatch_joinOutputs (kind : Byte) (payload : List Byte) (p s : State) :
    dispatch kind payload (joinOutputs p s) = joinOutputs p (dispatch kind payload s) := by
  rw [dispatch_eq, dispatch_eq]
  simp [joinOutputs]

/-- What follows the use of a read follows it for every value read. -/
theorem onRead_andThen {α : Type} (r : Except Fault α) (k : α → Out) (l : State → Out) :
    andThen (onRead r k) l = onRead r fun v => andThen (k v) l := by
  cases r <;> rfl

theorem appends_transition (b : Byte) (now : Nat) : Appends (transition b now) := by
  intro p s
  have hphase : (joinOutputs p s).phase = s.phase := rfl
  cases hp : s.phase with
  | waitStart =>
    rw [transition_waitStart hp, transition_waitStart (hphase.trans hp), waitStartByte_joinOutputs, andThen_next]
  | readLenHigh =>
    rw [transition_readLenHigh hp, transition_readLenHigh (hphase.trans hp), andThen_next]
    rfl
  | readLenLow =>
    rw [transition_readLenLow hp, transition_readLenLow (hphase.trans hp), andThen_next]
    exact congrArg Host.Outcome.next (boundCheck_joinOutputs p { s with bodyLen := lenOf (lenHi s.bodyLen) b })
  | readBody =>
    rw [transition_readBody hp, transition_readBody (hphase.trans hp)]
    unfold bodyByte bufWrite
    by_cases hm : s.cfg.maxBody ≤ s.cursor.toNat
    · rw [if_pos hm, if_pos (by exact hm)]
      rfl
    · rw [if_neg hm, if_neg (by exact hm)]
      exact congrArg Host.Outcome.next (advanceCursor_joinOutputs p { s with buf := s.buf.write s.cursor.toNat b })
  | readChecksum =>
    have hslice : ∀ a b, bufSlice (joinOutputs p s) a b = bufSlice s a b := bufSlice_congr rfl rfl
    rw [transition_readChecksum hp, transition_readChecksum (hphase.trans hp), checksumByte, checksumByte, hslice,
      onRead_andThen]
    show onRead (bufSlice s 0 s.bodyLen.toNat) _ = _
    congr 1
    funext body
    split
    · rw [acceptFrame, acceptFrame, onRead_andThen]
      show onRead (bufRead s 0) _ = _
      congr 1
      funext kind
      rw [hslice, onRead_andThen]
      show onRead (bufSlice s 1 s.bodyLen.toNat) _ = _
      congr 1
      funext payload
      exact congrArg (fun t : State => Host.Outcome.next { t with phase := .waitStart })
        (dispatch_joinOutputs kind payload p (markAlive now s))
    · rw [takeDrop_joinOutputs, andThen_next]

theorem appends_rxByte (b : Byte) (now : Nat) : Appends (rxByte b now) := by
  intro p s
  cases hi : s.inited with
  | false => rw [rxByte, rxByte, requireInit_false hi, requireInit_false (by exact hi), andThen_refused]
  | true =>
    cases hl : isLate now s with
    | true =>
      rw [rxByte_late hi hl, rxByte_late (by exact hi) (by exact hl), takeDrop_joinOutputs, andThen_next]
      exact congrArg Host.Outcome.next
        (waitStartByte_joinOutputs b p { takeDrop .idleTimeout s with tLastByte := now })
    | false =>
      rw [rxByte_onTime hi hl, rxByte_onTime (by exact hi) (by exact hl)]
      exact appends_transition b now p { s with tLastByte := now }

/-! ### Parts as operations -/

/-- The operations that are one part of a composite. -/
def isPart (i : Instr) : Bool :=
  match i with
  | .rxByte _ _ | .sampleTick _ _ | .sessionCheck _ | .heartbeatCheck _ _ => true
  | _ => false

/-- What such an operation does after the start of its step. -/
def partOf (i : Instr) : State → Out :=
  match i with
  | .rxByte b now => rxByte b now
  | .sampleTick levels now => cycleTick (some (levels, now))
  | .sessionCheck now => cycleSilence (some now)
  | .heartbeatCheck now status => cycleBeat (some (now, status))
  | _ => Host.Outcome.next

/-- Parts one after another, within one step. -/
def runParts (is : List Instr) (s : State) : Out :=
  match is with
  | [] => .next s
  | i :: rest => andThen (partOf i s) (runParts rest)

theorem exec_part {i : Instr} (h : isPart i = true) (s : State) : exec i s = partOf i s.beginStep := by
  cases i with
  | rxByte | sampleTick | sessionCheck | heartbeatCheck => rfl
  | _ => cases h

theorem appends_partOf (i : Instr) : Appends (partOf i) := by
  cases i with
  | rxByte b now => exact appends_rxByte b now
  | sampleTick levels now => exact appends_cycleTick (some (levels, now))
  | sessionCheck now => exact appends_cycleSilence (some now)
  | heartbeatCheck now status => exact appends_cycleBeat (some (now, status))
  | _ => exact appends_next

theorem appends_runParts (is : List Instr) : Appends (runParts is) := by
  induction is with
  | nil => exact appends_next
  | cons i rest ih => exact (appends_partOf i).andThen ih

/-- No part answers in the field `result`. -/
theorem partOf_result {i : Instr} {s t : State} (h : partOf i s = .next t) : t.result = s.result := by
  cases i with
  | rxByte b now =>
    obtain ⟨-, -, -, -, -, -, hresult, -⟩ := rxByte_keeps h
    exact hresult
  | sampleTick levels now => rw [(cycleTick_rest (tick := some (levels, now)) h).1]
  | sessionCheck now => rw [(cycleSilence_rest (silence := some now) h).1]
  | heartbeatCheck now status => rw [(cycleBeat_rest (beat := some (now, status)) h).1]
  | _ =>
    cases h
    rfl

/-- A state without an answer is its own outputs in front of the state at the start of the next step. -/
theorem joinOutputs_beginStep {t : State} (h : t.result = none) : joinOutputs t t.beginStep = t := by
  simp [joinOutputs, State.beginStep, ← h]

/-- Parts run as steps of their own give what they give within one step. -/
theorem runOps_eq_runParts {is : List Instr} (h : ∀ i ∈ is, isPart i = true) (s : State) :
    runOps is s = runParts is s.beginStep := by
  induction is generalizing s with
  | nil => rfl
  | cons i rest ih =>
    obtain ⟨hhere, hrest⟩ := List.forall_mem_cons.1 h
    rw [runOps, runParts, exec_part hhere]
    cases hpart : partOf i s.beginStep with
    | fault f => rfl
    | refused r => rfl
    | next t =>
      have hjoin := joinOutputs_beginStep (partOf_result hpart)
      rw [andThen_next, andThen_next, ih hrest, ← appends_runParts, hjoin]

theorem runParts_append (is js : List Instr) (s : State) :
    runParts (is ++ js) s = andThen (runParts is s) (runParts js) := by
  induction is generalizing s with
  | nil => rfl
  | cons i rest ih =>
    rw [List.cons_append, runParts, runParts, andThen_assoc]
    congr 1
    funext u
    exact ih u

theorem runParts_rxByte (rx : List (Byte × Nat)) (s : State) :
    runParts (rx.map fun p => .rxByte p.1 p.2) s = rxAll rx s := by
  induction rx generalizing s with
  | nil => rfl
  | cons p rest ih =>
    rw [List.map_cons, runParts, rxAll_cons]
    congr 1
    funext u
    exact ih u

/-- Settles O22: the burst is its receptions within one step. -/
theorem aBurstIsOneReceptionPerByte : Obligations.ABurstIsOneReceptionPerByte := by
  unfold Obligations.ABurstIsOneReceptionPerByte
  intro bs now s
  rw [runOps_eq_runParts (by simp [isPart]), exec_receivesOnly rfl, ← runParts_rxByte]
  simp [receivedBytes, Function.comp_def]

/-- Settles O23: the cycle is its parts within one step, each left out or run once. -/
theorem aPollCycleIsItsOperationsInOrder : Obligations.APollCycleIsItsOperationsInOrder := by
  unfold Obligations.APollCycleIsItsOperationsInOrder
  intro rx tick silence beat s
  have htick : runParts (tick.map fun p => Instr.sampleTick p.1 p.2).toList = cycleTick tick := by
    funext u
    cases tick with
    | none => rfl
    | some p => exact andThen_next_right _
  have hsilence : runParts (silence.map Instr.sessionCheck).toList = cycleSilence silence := by
    funext u
    cases silence with
    | none => rfl
    | some now => exact andThen_next_right _
  have hbeat : runParts (beat.map fun p => Instr.heartbeatCheck p.1 p.2).toList = cycleBeat beat := by
    funext u
    cases beat with
    | none => rfl
    | some p => exact andThen_next_right _
  rw [runOps_eq_runParts, runParts_append, runParts_append, runParts_append, htick, hsilence, hbeat, runParts_rxByte]
  · rfl
  · intro i hi
    simp only [List.mem_append, List.mem_map, Option.mem_toList, Option.map_eq_some_iff] at hi
    rcases hi with ((⟨p, -, rfl⟩ | ⟨p, -, rfl⟩) | ⟨now, -, rfl⟩) | ⟨p, -, rfl⟩ <;> rfl

end Sys2Proof.Proofs
end
